-- ==== Sys2Proof/Word.lean ====
section
/-! DEFINITION. The word types of the ranluxpp CORE (spec/00_scope.md R15, R16; spec/30_encoding.md R60). -/

namespace Sys2Proof

/-- A 576-bit register or bus value: nine 64-bit limbs, limb 0 least significant (R16, R21, R42).
A RESIDUE is such a value below the modulus; the type admits the others too (U12), and the
multiplier refuses them (R81). -/
abbrev Word576 := BitVec 576

/-- An unsigned 64-bit operand of a command: seed, skip exponent, jump length, count (R10, R12, R61). -/
abbrev Operand := BitVec 64

/-- One 136-bit command word `cmd[135:0]` (R60). -/
abbrev CmdWord := BitVec 136

/-- The bit pattern of one single-precision output element (R26, R116). -/
abbrev F32 := BitVec 32

/-- The bit pattern of one double-precision output element (R26, R124). -/
abbrev F64 := BitVec 64

/-- `limb(v, i) = v[64*i+63 : 64*i]` (R16). -/
def limb (v : Word576) (i : Nat) : BitVec 64 := v.extractLsb' (64 * i) 64

end Sys2Proof
end

