-- ==== Sys2Proof/Config.lean ====
section
/-! DEFINITION. The constants of the hardware (spec/00_scope.md R9, spec/10_state.md R32), its open parameters (R11, R13, R14), and the free values (spec/93_implementation_defined.md U14). -/

namespace Sys2Proof

/-- The fixed modulus `M = 2^576 - 2^240 + 1` (R2, R9), written out; `modulus_eq` in Laws/Modexp.lean says it is that number. -/
abbrev modulus : Nat :=
  0xFFFFFFFFFFFFFFFFFFFFFFFFFFFFFFFFFFFFFFFFFFFFFFFFFFFFFFFFFFFFFFFFFFFFFFFFFFFFFFFFFFFF000000000000000000000000000000000000000000000000000000000001

/-- `ONE`, the residue 1 (R16). -/
abbrev residueOne : Word576 := 1

/-- The single-precision batch size `BF = 24` (R9). -/
abbrev batchF : Nat := 24

/-- The double-precision batch size `BD = 11` (R9). -/
abbrev batchD : Nat := 11

/-- The exponent `2^48` that SEED uses twice (R9, R161). -/
def seedExponent : Operand := 0x0001000000000000

/-- The exponent 2048 of the full-period multiplier (R9, R169). -/
def primExponent : Operand := 2048

/-- The addend 13 of the full-period multiplier (R9, R170). -/
def primAddend : Nat := 13

/-- The parameters a core is instantiated with that some rule reads (R14). `A_BASE` is a residue by its
type, which is the integrator's duty R202. -/
structure Params where
  /-- `A_BASE` (R11). -/
  aBase : Fin modulus
  /-- `JUMP_RESETS_CURSORS`, default false (R13, R166). -/
  jumpResetsCursors : Bool := false
  deriving DecidableEq, Repr

/-- `A_BASE` as a 576-bit value. -/
def Params.base (P : Params) : Word576 := BitVec.ofNat 576 P.aBase.val

/-- The two byte orders of R43. -/
inductive ByteOrder where
  | little
  | big
  deriving DecidableEq, Repr, Inhabited

/-- `A_BASE`, OPEN (R11, D7): some residue, of which nothing is known. Log 6. -/
opaque Config.aBase : Fin modulus

/-- `JUMP_RESETS_CURSORS` of the core that `exec` and `step` run: the default, false (R13, R14, R166). A core
instantiated otherwise is `execWith` and `stepWith` of Machine/Instance.lean. Log 7. -/
def Config.jumpResetsCursors : Bool := false

/-- `OUT_BYTE_ORDER`, OPEN, read by no rule of the spec (R43, R14) and by nothing of the model. Log 8. -/
opaque Config.outByteOrder : ByteOrder

/-- The parameters of the core that `exec` and `step` run: any `A_BASE`, and the default of R13. -/
def Config.params : Params :=
  { aBase := Config.aBase, jumpResetsCursors := Config.jumpResetsCursors }

/-- Free value: what `X` holds after a MulmodPrecondition fault (U14: any value). Log 9. -/
opaque Config.freeX : Nat → Word576

/-- Free value: what `A` holds after a MulmodPrecondition fault (U14). Log 9. -/
opaque Config.freeA : Nat → Word576

/-- Free value: what `FCUR` holds after a MulmodPrecondition fault (U14). Log 9. -/
opaque Config.freeFcur : Nat → Fin (batchF + 1)

/-- Free value: what `DCUR` holds after a MulmodPrecondition fault (U14). Log 9. -/
opaque Config.freeDcur : Nat → Fin (batchD + 1)

/-- Free value: what `FBUF` holds after a MulmodPrecondition fault (U14). Log 9. -/
opaque Config.freeFbuf : Nat → Vector F32 batchF

/-- Free value: what `DBUF` holds after a MulmodPrecondition fault (U14). Log 9. -/
opaque Config.freeDbuf : Nat → Vector F64 batchD

end Sys2Proof
end

