-- ==== Sys2Proof/Syntax.lean ====
section
/-! DEFINITION. The six commands (spec/30_encoding.md R62) and the fields of the one command format (R60). -/

namespace Sys2Proof

/-- The six commands of the opcode table, in the table's order, with their operands (R62). A command
stands where an ISA manual says "instruction" (R19). -/
inductive Instr where
  /-- `SEED seed, p` (R161). -/
  | seed (seed p : Operand)
  /-- `READF count` (R141). -/
  | readf (count : Operand)
  /-- `READD count` (R142). -/
  | readd (count : Operand)
  /-- `JUMP n` (R165). -/
  | jump (n : Operand)
  /-- `SETSKIP n` (R168). -/
  | setskip (n : Operand)
  /-- `SELPRIM` (R169). -/
  | selprim
  deriving DecidableEq, Repr

/-- The pseudo-command `CONSTRUCT seed, p`, which is `SEED seed, p` (R68, R173). -/
def Instr.construct (seed p : Operand) : Instr := .seed seed p

/-- The three fields of the format CMD136 (R60): opcode, second operand, first operand. -/
structure Fields where
  /-- `cmd[135:128]` -/
  op : BitVec 8
  /-- `cmd[127:64]` -/
  arg1 : Operand
  /-- `cmd[63:0]` -/
  arg0 : Operand
  deriving DecidableEq, Repr

end Sys2Proof
end

