-- ==== Sys2Proof/Machine/State.lean ====
section
/-! DEFINITION. The architectural state (spec/10_state.md R20 to R33), the model's own port fields, the outcomes of a step, and the state after reset. -/

namespace Sys2Proof.Machine

/-- `FAULT_CODE` and the cause it names; the four constructors are the four values of the 2-bit register
(R182). -/
inductive FaultCode where
  /-- 0: no fault recorded. -/
  | none
  /-- 1: the decoder met an illegal word (R183). -/
  | illegalCommand
  /-- 2: a legal command other than SEED on an unseeded core (R184). -/
  | notSeeded
  /-- 3: a multiplier request with an operand that is no residue (R185). -/
  | mulmodPrecondition
  deriving DecidableEq, Repr

/-- The pattern of one output element: 32 bits from READF, 64 from READD (R40, R46). -/
inductive OutElem where
  | single (v : F32)
  | double (v : F64)
  deriving DecidableEq, Repr

/-- One `OutWrite(i, w, v)` transaction of the output port (R44); `w` is told by the element's kind. -/
structure OutWrite where
  /-- `i`, the element's index in the output array of its command. -/
  index : Nat
  /-- `v`, with its width. -/
  elem : OutElem
  deriving DecidableEq, Repr

/-- What the host does at the core's inputs (R55): present a word on the command port, or assert reset. -/
inductive HostAction where
  | present (w : CmdWord)
  | reset
  deriving DecidableEq, Repr

/-- The state of one core (R20), and three fields of the model's own. There is no memory and no other core (R40, R47, R35). Log 16, 18. -/
structure State where
  /-- `X`, the current state of the recurrence (R21). -/
  x : Word576
  /-- `A`, the current multiplier (R22). -/
  a : Word576
  /-- `FCUR`, the index of the next undelivered entry of `FBUF`; 24 = none (R24). Log 12. -/
  fcur : Fin (batchF + 1)
  /-- `DCUR`, the index of the next undelivered entry of `DBUF`; 11 = none (R25). Log 12. -/
  dcur : Fin (batchD + 1)
  /-- `FBUF[0..23]` (R26). -/
  fbuf : Vector F32 batchF
  /-- `DBUF[0..10]` (R26). -/
  dbuf : Vector F64 batchD
  /-- `SEEDED` (R28). -/
  seeded : Bool
  /-- `FAULT`, sticky (R29). -/
  fault : Bool
  /-- `FAULT_CODE` (R29, R182). -/
  faultCode : FaultCode
  /-- `BUSY` (R27, R30): 1 while a command is in progress. -/
  busy : Bool
  /-- The model's own: what the host does next, first action first (R40, R55). Log 2. -/
  host : List HostAction
  /-- The model's own: every transaction of the output port so far, oldest first (R44). Log 10. -/
  out : List OutWrite
  /-- The model's own: how many times free values have been drawn (U14). Log 9. -/
  freeCount : Nat
  deriving DecidableEq, Repr

/-- Reasons a step stops with a fault: none. Each of the three faults of R182 has a described entry
(R181, R187), so it is taken: a next state with FAULT set. A faulted core is stuck by accepting nothing
(R187), which is a next state too. Log 11. -/
inductive Fault where
  deriving DecidableEq, Repr

/-- Reasons a step has no meaning. -/
inductive Refusal where
  /-- Raised by an arm of `exec` alone, for an instruction without a meaning yet; safe. No arm raises it. -/
  | notModelled (mnemonic : String)
  deriving DecidableEq, Repr

/-- The core right after reset, with no host action to come and nothing delivered yet (R33, R200). BUSY,
SEEDED, FAULT and FAULT_CODE are the spec's. The spec gives `X`, `A`, the cursors and the buffers no value
and lets no command read them before a SEED (R28, R184); the values here are the model's: DESIGN CHOICE,
log 3 (`X`, `A`), 4 (cursors: empty), 5 (buffers), 10 (`out`), 9 (`freeCount`). -/
def State.reset : State :=
  { x := 0, a := 0, fcur := 24, dcur := 11, fbuf := Vector.replicate batchF 0, dbuf := Vector.replicate batchD 0,
    seeded := false, fault := false, faultCode := .none, busy := false, host := [], out := [], freeCount := 0 }

end Sys2Proof.Machine
end

