-- ==== Sys2Proof/Machine/Ops.lean ====
section
/-! DEFINITION. The shared operations on the state: accepting and completing a command (spec/10_state.md R27), fault entry (spec/60_exceptions.md R181, R187) and the one way out of it, reset (R188, R200), and the output port (spec/20_memory.md R44). -/

namespace Sys2Proof.Machine

/-- What one command, or one step, answers. -/
abbrev Result := Host.Outcome State Fault Refusal

/-- A command is accepted: BUSY becomes 1 (R27, R40). -/
def accept (s : State) : State := { s with busy := true }

/-- A command completes: BUSY returns to 0 (R27, R50). -/
def complete (s : State) : State := { s with busy := false }

/-- Fault entry, `raise F`: FAULT and FAULT_CODE are set and BUSY cleared; nothing is saved and nothing
else changes (R181, R187). -/
def raiseFault (c : FaultCode) (s : State) : State :=
  { s with fault := true, faultCode := c, busy := false }

/-- After a MulmodPrecondition fault `X`, `A`, the cursors and the buffers hold any value (R187, U14): each is
a free value. Log 9. -/
def scramble (s : State) : State :=
  { s with
    x := Config.freeX s.freeCount, a := Config.freeA s.freeCount,
    fcur := Config.freeFcur s.freeCount, dcur := Config.freeDcur s.freeCount,
    fbuf := Config.freeFbuf s.freeCount, dbuf := Config.freeDbuf s.freeCount,
    freeCount := s.freeCount + 1 }

/-- `raise MulmodPrecondition` (R185, R187, U14). -/
def raiseMulmod (s : State) : State := raiseFault .mulmodPrecondition (scramble s)

/-- Reset (R200, R33): the state of `State.reset`; what was delivered stays delivered, and the host's further
actions are untouched. It is the only way out of a fault (R188). -/
def resetCore (s : State) : State :=
  { State.reset with host := s.host, out := s.out, freeCount := s.freeCount }

/-- `OutWrite(i, w, v)`: one element leaves through the output port (R44). -/
def outWrite (i : Nat) (v : OutElem) (s : State) : State := { s with out := s.out ++ [⟨i, v⟩] }

/-- The transactions that deliver these elements as elements `o, o+1, …` of the command's output array, in
that order, each index once (R44). -/
def outWritesFrom (o : Nat) : List OutElem → List OutWrite
  | [] => []
  | v :: vs => ⟨o, v⟩ :: outWritesFrom (o + 1) vs

/-- A command's whole output array leaves through the output port, index 0 first (R44). -/
def deliver (vs : List OutElem) (s : State) : State := { s with out := s.out ++ outWritesFrom 0 vs }

end Sys2Proof.Machine
end

