-- ==== Sys2Proof/Machine/Flags.lean ====
section
/-! DEFINITION. The flags and what reads them: the status word (spec/10_state.md R30), acceptance on the command port (spec/20_memory.md R40), the SEEDED check (spec/60_exceptions.md R184). -/

namespace Sys2Proof.Machine

/-- `FAULT_CODE` as its two bits (R182). -/
def faultCodeBits (c : FaultCode) : BitVec 2 :=
  match c with
  | .none => 0
  | .illegalCommand => 1
  | .notSeeded => 2
  | .mulmodPrecondition => 3

/-- The status word the host reads on STAT: bits 7:5 read as 0, 4:3 FAULT_CODE, 2 FAULT, 1 SEEDED, 0 BUSY
(R30). Reading it changes nothing (R40, R46). -/
def statusWord (s : State) : BitVec 8 :=
  (0 : BitVec 3) ++ faultCodeBits s.faultCode ++ BitVec.ofBool s.fault ++ BitVec.ofBool s.seeded ++ BitVec.ofBool s.busy

/-- The command port accepts a word only when BUSY = 0 and FAULT = 0 (R40). -/
def portOpen (s : State) : Bool := !s.busy && !s.fault

/-- A legal command other than SEED runs only on a seeded core; else it raises NotSeeded, before any state
is read or written and before any output (R184, R186). -/
def whenSeeded (s : State) (k : Result) : Result :=
  if s.seeded then k else .next (raiseFault .notSeeded s)

end Sys2Proof.Machine
end

