-- ==== Sys2Proof/Machine/Operands.lean ====
section
/-! DEFINITION. How operands are read: a 64-bit operand as an unsigned number (spec/30_encoding.md R61), and its bits as the exponentiation engine scans them (spec/40_modexp.md R85). -/

namespace Sys2Proof.Machine

/-- An operand used whole, as an unsigned integer in `[0, 2^64)` (R61). -/
def operandValue (n : Operand) : Nat := n.toNat

/-- `msb(v)` for `v > 0`: the index of the most significant set bit, `floor(log2 v)` (R15). -/
def msb (v : Nat) : Nat := Nat.log2 v

/-- `n[i]` (R15). -/
def exponentBit (n : Operand) (i : Nat) : Bool := n.getLsbD i

end Sys2Proof.Machine
end

