-- ==== Sys2Proof/Machine/Modexp.lean ====
section
/-! DEFINITION. The contract of the external multiplier (spec/40_modexp.md R80 to R82) and the modular exponentiation engine (R85 to R87). -/

namespace Sys2Proof.Machine

/-- A residue: a 576-bit value below `M` (R16). -/
def isResidue (v : Word576) : Bool := v.toNat < modulus

/-- The residue `k mod M` of a natural number `k` (R16). -/
def residueOf (k : Nat) : Word576 := BitVec.ofNat 576 (k % modulus)

/-- `a * b mod M`, the product taken over the integers (R80). -/
def mulValue (a b : Word576) : Word576 := residueOf (a.toNat * b.toNat)

/-- One transaction on the multiplier port (R80). A request with an operand that is no residue has no
result: the caller raises MulmodPrecondition (R81, R185). Log 13. -/
def mulMod (a b : Word576) : Option Word576 :=
  if isResidue a && isResidue b then some (mulValue a b) else none

/-- The loop of POWMOD, with `i` bits of the exponent still to scan: square, and multiply by the base where the
bit is 1, from bit `i - 1` down to bit 0 (R85, R87). -/
def powLoop (base : Word576) (n : Operand) : Nat → Word576 → Option Word576
  | 0, acc => some acc
  | i + 1, acc =>
    (mulMod acc acc).bind fun sq =>
      (if exponentBit n i then mulMod sq base else some sq).bind fun r => powLoop base n i r

/-- `PowMod(base, n)`: left-to-right square-and-multiply that starts with `acc = base` at the top set bit;
exponent 0 gives ONE with no request (R85, R86). -/
def powMod (base : Word576) (n : Operand) : Option Word576 :=
  if n = 0 then some residueOne else powLoop base n (msb (operandValue n)) base

/-- `Advance()` on the value of `X`: one transaction, `MulMod(X, A)` (R100). -/
def advance (x a : Word576) : Option Word576 := mulMod x a

/-- `AddMod13(t)`: a 577-bit sum and one conditional subtraction of `M` (R170). -/
def addMod13 (t : Word576) : Word576 :=
  let s := t.toNat + primAddend
  BitVec.ofNat 576 (if modulus ≤ s then s - modulus else s)

end Sys2Proof.Machine
end

