-- ==== Sys2Proof/Machine/Configure.lean ====
section
/-! DEFINITION. The configuration commands SEED, JUMP, SETSKIP, SELPRIM (spec/44_config.md R161 to R171), each for given parameters (R14) and then for the core's own. -/

namespace Sys2Proof.Machine

/-- Both buffers become empty: `FCUR <- 24`, `DCUR <- 11` (R161, R166). -/
def emptyBuffers (s : State) : State := { s with fcur := 24, dcur := 11 }

/-- The new `A` and `X` of SEED: four exponentiations and one multiplication into ONE (R161). -/
def seedRegs (P : Params) (seed p : Operand) : Option (Word576 × Word576) :=
  (powMod P.base p).bind fun a =>
  (powMod a seedExponent).bind fun t1 =>
  (powMod t1 seedExponent).bind fun t2 =>
  (powMod t2 seed).bind fun t =>
  (mulMod residueOne t).bind fun x => some (a, x)

/-- `SEED seed, p` of a core with the parameters `P` (R161): legal on an unseeded core, and it re-seeds a
seeded one completely (R164). -/
def seedWith (P : Params) (seed p : Operand) (s : State) : Result :=
  match seedRegs P seed p with
  | some (a, x) => .next (complete { emptyBuffers { s with a := a, x := x } with seeded := true })
  | none => .next (raiseMulmod s)

/-- `SEED seed, p` (R161). -/
def execSeed (seed p : Operand) (s : State) : Result := seedWith Config.params seed p s

/-- The end of JUMP: the cursors, if the core is instantiated so (R165, R166). -/
def afterJump (P : Params) (s : State) : State := if P.jumpResetsCursors then emptyBuffers s else s

/-- `JUMP n` of a core with the parameters `P` (R165): `X` times a power of `A_BASE`, not of `A`. -/
def jumpWith (P : Params) (n : Operand) (s : State) : Result :=
  whenSeeded s <|
    match (powMod P.base n).bind (mulMod s.x) with
    | some x => .next (complete (afterJump P { s with x := x }))
    | none => .next (raiseMulmod s)

/-- `JUMP n` (R165). -/
def execJump (n : Operand) (s : State) : Result := jumpWith Config.params n s

/-- `SETSKIP n` of a core with the parameters `P` (R168): `A` alone is written. -/
def setSkipWith (P : Params) (n : Operand) (s : State) : Result :=
  whenSeeded s <|
    match powMod P.base n with
    | some a => .next (complete { s with a := a })
    | none => .next (raiseMulmod s)

/-- `SETSKIP n` (R168). -/
def execSetskip (n : Operand) (s : State) : Result := setSkipWith Config.params n s

/-- `SELPRIM` of a core with the parameters `P` (R169): `A` alone is written. -/
def selPrimWith (P : Params) (s : State) : Result :=
  whenSeeded s <|
    match powMod P.base primExponent with
    | some t => .next (complete { s with a := addMod13 t })
    | none => .next (raiseMulmod s)

/-- `SELPRIM` (R169). -/
def execSelprim (s : State) : Result := selPrimWith Config.params s

end Sys2Proof.Machine
end

