-- ==== Sys2Proof/Machine/Extract.lean ====
section
/-! DEFINITION. The field extractor: EXTRACTF (spec/42_extract.md R112 to R116) and EXTRACTD (R120 to R124), pure functions of the 576 bits of `X` (R110). -/

namespace Sys2Proof.Machine

/-- `ffield(v, k) = v[24*k + 23 : 24*k]` (R112). -/
def ffield (v : Word576) (k : Nat) : BitVec 24 := v.extractLsb' (24 * k) 24

/-- The binary32 pattern of `f / 2^24` (R116). -/
def f32bits (f : BitVec 24) : F32 :=
  if f = 0 then 0
  else
    let h := msb f.toNat
    BitVec.ofNat 32 (((103 + h) <<< 23) ||| ((f.toNat <<< (23 - h)) &&& 0x7FFFFF))

/-- `ExtractF(v)`: the 24 single-precision patterns of one state, `f[0]` first (R113, R115). -/
def extractF (v : Word576) : Vector F32 batchF := Vector.ofFn fun k => f32bits (ffield v k.val)

/-- `dfield(v, j) = v[52*j + 51 : 52*j]` (R120). -/
def dfield (v : Word576) (j : Nat) : BitVec 52 := v.extractLsb' (52 * j) 52

/-- The construction step: sign 0, exponent bits `0x3FF`, the field as the 52 fraction bits; the pattern of
`1 + f / 2^52` (R121, R123). -/
def onePlus (f : BitVec 52) : F64 := 0x3FF0000000000000 ||| f.setWidth 64

/-- The binary64 pattern of `f / 2^52` (R124); `+0.0` for 0 (R125). -/
def f64bits (f : BitVec 52) : F64 :=
  if f = 0 then 0
  else
    let h := msb f.toNat
    BitVec.ofNat 64 (((971 + h) <<< 52) ||| ((f.toNat <<< (52 - h)) &&& 0xFFFFFFFFFFFFF))

/-- The binary64 subtraction `u - 1.0` for a pattern `u` of a number in `[1, 2)`, exact in every rounding
mode: the 52 fraction bits of `u`, normalised (R121, R124). -/
def subOne (u : F64) : F64 := f64bits (u.extractLsb' 0 52)

/-- `ExtractD(v)`: the 11 double-precision patterns of one state, `d[0]` first (R121, R126). -/
def extractD (v : Word576) : Vector F64 batchD := Vector.ofFn fun j => subOne (onePlus (dfield v j.val))

end Sys2Proof.Machine
end

