-- ==== Sys2Proof/Machine/Reader.lean ====
section
/-! DEFINITION. The buffered bulk reader (spec/43_bulk_reader.md R140 to R145): the common algorithm, and READF and READD over it. -/

namespace Sys2Proof.Machine

/-- What one READ works on: `X`, the precision's own cursor and buffer, and the elements delivered so far by
this command, element 0 first (R140, R143). -/
structure ReadRun (w B : Nat) where
  x : Word576
  cur : Fin (B + 1)
  buf : Vector (BitVec w) B
  out : List (BitVec w)
  deriving DecidableEq, Repr

/-- `t = min(B - CUR, rem)`, how many leftover values the drain phase delivers (R143). -/
def drainCount {B : Nat} (cur : Fin (B + 1)) (rem : Nat) : Nat := min (B - cur.val) rem

/-- Phase 1, drain: deliver `BUF[CUR], BUF[CUR + 1], …` and move the cursor (R143). -/
def drainPhase {w B : Nat} (n : Nat) (r : ReadRun w B) : ReadRun w B :=
  { r with
    cur := Fin.ofNat (B + 1) (r.cur.val + drainCount r.cur n)
    out := r.out ++ (r.buf.toList.drop r.cur.val).take (drainCount r.cur n) }

/-- Phase 2, bulk, for `q` batches: advance, extract, deliver the whole batch; buffer and cursor untouched
(R143). An error is the run at the refused multiplier request. -/
def bulkPhase {w B : Nat} (a : Word576) (extract : Word576 → Vector (BitVec w) B) :
    Nat → ReadRun w B → Except (ReadRun w B) (ReadRun w B)
  | 0, r => .ok r
  | q + 1, r =>
    match advance r.x a with
    | none => .error r
    | some x' => bulkPhase a extract q { r with x := x', out := r.out ++ (extract x').toList }

/-- Phase 3, tail, for a remainder of `rem < B` elements: advance, extract into the buffer, deliver its first
`rem` entries, set the cursor to `rem` (R143). -/
def tailPhase {w B : Nat} (a : Word576) (extract : Word576 → Vector (BitVec w) B) (rem : Nat) (r : ReadRun w B) :
    Except (ReadRun w B) (ReadRun w B) :=
  if rem = 0 then .ok r
  else
    match advance r.x a with
    | none => .error r
    | some x' =>
      .ok { x := x', cur := Fin.ofNat (B + 1) rem, buf := extract x', out := r.out ++ (extract x').toList.take rem }

/-- `Read(n)` (R143): drain, then as many whole batches as the rest holds, then the tail. -/
def readRun {w B : Nat} (a : Word576) (extract : Word576 → Vector (BitVec w) B) (n : Nat) (r : ReadRun w B) :
    Except (ReadRun w B) (ReadRun w B) :=
  let rem := n - drainCount r.cur n
  match bulkPhase a extract (rem / B) (drainPhase n r) with
  | .error e => .error e
  | .ok r' => tailPhase a extract (rem % B) r'

/-- The single-precision reader's run at the start of a READF (R141). -/
def startF (s : State) : ReadRun 32 batchF := { x := s.x, cur := s.fcur, buf := s.fbuf, out := [] }

/-- What a READF writes: `X`, `FCUR`, `FBUF`, and its elements on the output port (R141). -/
def storeF (s : State) (r : ReadRun 32 batchF) : State :=
  deliver (r.out.map .single) { s with x := r.x, fcur := r.cur, fbuf := r.buf }

/-- `READF count` (R141, R143, R144). -/
def execReadf (count : Operand) (s : State) : Result :=
  whenSeeded s <|
    match readRun s.a extractF (operandValue count) (startF s) with
    | .ok r => .next (complete (storeF s r))
    | .error r => .next (raiseMulmod (storeF s r))

/-- The double-precision reader's run at the start of a READD (R142). -/
def startD (s : State) : ReadRun 64 batchD := { x := s.x, cur := s.dcur, buf := s.dbuf, out := [] }

/-- What a READD writes: `X`, `DCUR`, `DBUF`, and its elements on the output port (R142). -/
def storeD (s : State) (r : ReadRun 64 batchD) : State :=
  deliver (r.out.map .double) { s with x := r.x, dcur := r.cur, dbuf := r.buf }

/-- `READD count` (R142, R143, R144). -/
def execReadd (count : Operand) (s : State) : Result :=
  whenSeeded s <|
    match readRun s.a extractD (operandValue count) (startD s) with
    | .ok r => .next (complete (storeD s r))
    | .error r => .next (raiseMulmod (storeD s r))

end Sys2Proof.Machine
end

