-- ==== Sys2Proof/Machine/Dispatch.lean ====
section
/-! DEFINITION. What each command does once it is accepted: one arm per constructor of Instr. -/

namespace Sys2Proof.Machine

def exec (i : Instr) (s : State) : Host.Outcome State Fault Refusal :=
  match i with
  | .seed k p => Sys2Proof.Machine.execSeed k p s
  | .readf n => Sys2Proof.Machine.execReadf n s
  | .readd n => Sys2Proof.Machine.execReadd n s
  | .jump n => Sys2Proof.Machine.execJump n s
  | .setskip n => Sys2Proof.Machine.execSetskip n s
  | .selprim => Sys2Proof.Machine.execSelprim s

end Sys2Proof.Machine
end

