-- ==== Sys2Proof/WellFormed.lean ====
section
/-! DEFINITION. Which command fields are legal (spec/30_encoding.md R64) and which commands are well-formed (all: R64). -/

namespace Sys2Proof

/-- R64 (a): the opcode is one of `0x01 … 0x06`. -/
def Fields.opcodeLegal (f : Fields) : Bool := 1 ≤ f.op.toNat && f.op.toNat ≤ 6

/-- R64 (b), R62: `arg1` is an operand of SEED (`0x01`) alone; of every other command it is reserved and must be 0. -/
def Fields.arg1Legal (f : Fields) : Bool := f.op.toNat = 1 || f.arg1 = 0

/-- R64 (b), R62: `arg0` is reserved in SELPRIM (`0x06`) alone, where it must be 0. -/
def Fields.arg0Legal (f : Fields) : Bool := f.op.toNat ≠ 6 || f.arg0 = 0

/-- A command word with these fields is legal, that is, not illegal by R64. -/
def Fields.legal (f : Fields) : Bool := f.opcodeLegal && f.arg1Legal && f.arg0Legal

/-- Every value of every operand of the six commands is legal (R64, R180), and the operand types hold
nothing else, so every term of `Instr` is well-formed. The checks with content are `Fields.legal`'s. -/
def Instr.wellFormed : Instr → Bool
  | .seed _ _ => true
  | .readf _ => true
  | .readd _ => true
  | .jump _ => true
  | .setskip _ => true
  | .selprim => true

end Sys2Proof
end

