-- ==== Sys2Proof/Decode.lean ====
section
/-! DEFINITION. The decoder, total on any 136-bit word (spec/30_encoding.md R65), the encoder, the opcode table's match and mask (R62), and the assembler text of a command (R67). -/

namespace Sys2Proof

/-- Why a word is no command, by R64's two cases. Either raises IllegalCommand (R183). -/
inductive Illegal where
  /-- (a): the opcode is not one of `0x01 … 0x06`. -/
  | opcode (op : BitVec 8)
  /-- (b): the opcode is legal and a reserved field is not zero. -/
  | reserved (op : BitVec 8)
  deriving DecidableEq, Repr

/-- The fields of a command word (R60). -/
def fieldsOf (w : CmdWord) : Fields :=
  { op := w.extractLsb' 128 8, arg1 := w.extractLsb' 64 64, arg0 := w.extractLsb' 0 64 }

/-- The command word with these fields (R60). -/
def wordOf (f : Fields) : CmdWord := f.op ++ f.arg1 ++ f.arg0

/-- R65's case distinction on the opcode. -/
def decodeFields (f : Fields) : Except Illegal Instr :=
  match f.op.toNat with
  | 1 => .ok (.seed f.arg0 f.arg1)
  | 2 => if f.arg1 = 0 then .ok (.readf f.arg0) else .error (.reserved f.op)
  | 3 => if f.arg1 = 0 then .ok (.readd f.arg0) else .error (.reserved f.op)
  | 4 => if f.arg1 = 0 then .ok (.jump f.arg0) else .error (.reserved f.op)
  | 5 => if f.arg1 = 0 then .ok (.setskip f.arg0) else .error (.reserved f.op)
  | 6 => if f.arg1 = 0 ∧ f.arg0 = 0 then .ok .selprim else .error (.reserved f.op)
  | _ => .error (.opcode f.op)

/-- `decode(w)` of R65. -/
def decode (w : CmdWord) : Except Illegal Instr := decodeFields (fieldsOf w)

/-- The command a word decodes to, if it is legal. -/
def decoded (w : CmdWord) : Option Instr :=
  match decode w with
  | .ok i => some i
  | .error _ => none

/-- The fields that encode a command, reserved fields 0 (R62, R65). -/
def Instr.fields : Instr → Fields
  | .seed k p => { op := 0x01, arg1 := p, arg0 := k }
  | .readf count => { op := 0x02, arg1 := 0, arg0 := count }
  | .readd count => { op := 0x03, arg1 := 0, arg0 := count }
  | .jump n => { op := 0x04, arg1 := 0, arg0 := n }
  | .setskip n => { op := 0x05, arg1 := 0, arg0 := n }
  | .selprim => { op := 0x06, arg1 := 0, arg0 := 0 }

/-- `encode`, the inverse of `decode` on the six commands (R65). -/
def encode (i : Instr) : CmdWord := wordOf i.fields

/-- The command read from the opcode table's numbering of bits: bit 0 is the least significant bit of the
one 136-bit word (R60); the bits from `nbits` on are 0. A number of 137 bits or more is no command word. -/
def decodeTableWord (nbits w : Nat) : Option Instr :=
  if w % 2 ^ nbits < 2 ^ 136 then decoded (BitVec.ofNat 136 (w % 2 ^ nbits)) else none

/-- One row of R62's second table: a word `w` selects it when `w AND mask = match`. -/
structure OpcodeRow where
  mnemonic : String
  matchBits : CmdWord
  mask : CmdWord
  deriving DecidableEq, Repr

/-- `w AND mask = match` (R62). -/
def OpcodeRow.selects (r : OpcodeRow) (w : CmdWord) : Bool := w &&& r.mask = r.matchBits

/-- The row of R62 that stands for a command. -/
def Instr.row : Instr → OpcodeRow
  | .seed _ _ => ⟨"SEED", 0x0100000000000000000000000000000000, 0xFF00000000000000000000000000000000⟩
  | .readf _ => ⟨"READF", 0x0200000000000000000000000000000000, 0xFFFFFFFFFFFFFFFFFF0000000000000000⟩
  | .readd _ => ⟨"READD", 0x0300000000000000000000000000000000, 0xFFFFFFFFFFFFFFFFFF0000000000000000⟩
  | .jump _ => ⟨"JUMP", 0x0400000000000000000000000000000000, 0xFFFFFFFFFFFFFFFFFF0000000000000000⟩
  | .setskip _ => ⟨"SETSKIP", 0x0500000000000000000000000000000000, 0xFFFFFFFFFFFFFFFFFF0000000000000000⟩
  | .selprim => ⟨"SELPRIM", 0x0600000000000000000000000000000000, 0xFFFFFFFFFFFFFFFFFFFFFFFFFFFFFFFFFF⟩

/-- The opcode table of R62, all six rows in its order. -/
def opcodeTable : List OpcodeRow :=
  [(Instr.seed 0 0).row, (Instr.readf 0).row, (Instr.readd 0).row, (Instr.jump 0).row, (Instr.setskip 0).row, Instr.selprim.row]

/-- The assembler text of a command: mnemonic, then `arg0, arg1`, operands in decimal, reserved operands
not written (R67). -/
def Instr.assembly : Instr → String
  | .seed k p => "SEED " ++ Nat.repr k.toNat ++ ", " ++ Nat.repr p.toNat
  | .readf count => "READF " ++ Nat.repr count.toNat
  | .readd count => "READD " ++ Nat.repr count.toNat
  | .jump n => "JUMP " ++ Nat.repr n.toNat
  | .setskip n => "SETSKIP " ++ Nat.repr n.toNat
  | .selprim => "SELPRIM"

end Sys2Proof
end

