-- ==== Sys2Proof/Machine/Port.lean ====
section
/-! DEFINITION. The command port and the reset input (spec/20_memory.md R40, spec/60_exceptions.md R186): one host action, given what an accepted command does. -/

namespace Sys2Proof.Machine

/-- DECODE of an accepted word: legality first, then the command, which checks SEEDED itself (R183, R186).
Log 15. -/
def runWord (run : Instr → State → Result) (w : CmdWord) (s : State) : Result :=
  match decode w with
  | .ok i => run i (accept s)
  | .error _ => .next (raiseFault .illegalCommand (accept s))

/-- A word is presented on the command port: a closed port does not accept it and nothing changes (R40, R187,
U6). -/
def presentWord (run : Instr → State → Result) (w : CmdWord) (s : State) : Result :=
  if portOpen s then runWord run w s else .next s

/-- One step: the next host action, a command being carried out whole (R27, R49). With no action the core
idles and keeps all its state (R196). Log 1, 2. -/
def stepBy (run : Instr → State → Result) (s : State) : Result :=
  match s.host with
  | [] => .next s
  | .reset :: rest => .next (resetCore { s with host := rest })
  | .present w :: rest => presentWord run w { s with host := rest }

/-- The host's next action becomes the presentation of `w`, before whatever it does after that. -/
def queueWord (w : CmdWord) (s : State) : State := { s with host := .present w :: s.host }

end Sys2Proof.Machine
end

