-- ==== Sys2Proof/Machine/Step.lean ====
section
/-! DEFINITION. One step of the machine, and how a command word is placed for the next step. -/

namespace Sys2Proof.Machine

/-- One step: one host action (Machine/Port.lean), commands meaning what `exec` says. -/
def step (s : State) : Host.Outcome State Fault Refusal := stepBy exec s

/-- `s` with the command word numbered as the opcode table numbers it presented next on the command port, which
is where the core takes its next command (R40, R60). Log 2. -/
def State.withFetchWord (s : State) (nbits w : Nat) : State :=
  queueWord (BitVec.ofNat 136 (w % 2 ^ nbits)) s

end Sys2Proof.Machine
end

