-- ==== Sys2Proof/Machine/Control.lean ====
section
/-! DEFINITION. The control machine: one command seen from inside, one control state at a time (spec/40_modexp.md R87, spec/41_advance.md R104, spec/43_bulk_reader.md R150), with the hidden working values of spec/10_state.md R31. A second, finer design of what `step` does in one; log 17. -/

namespace Sys2Proof.Machine

/-- The control states (R104, R87, R150, D1). -/
inductive Ctl where
  | idle | decode
  | pwInit | pwTest | pwSqr | pwMul | pwNext | pwDone
  | drain | bulk | tail | adv | ext
  | faulted
  deriving DecidableEq, Repr

/-- Which exponentiation of which command POWMOD returns to (R89): SEED's four in order, or the one of JUMP,
SETSKIP, SELPRIM. -/
inductive Caller where
  | seedMultiplier | seedFirst | seedSecond | seedBySeed
  | jump | setSkip | selPrim
  deriving DecidableEq, Repr

/-- The precision of the READ in progress (R140). -/
inductive Precision where
  | single | double
  deriving DecidableEq, Repr

/-- The core with its control state and hidden working values (R31). Between commands only `core` and `ctl`
mean anything. -/
structure Micro where
  /-- The architectural state. -/
  core : State
  ctl : Ctl
  /-- The accepted command word (R186). -/
  word : CmdWord
  /-- SEED's operand `seed`, needed by its last exponentiation (R161). -/
  seedOperand : Operand
  /-- Where POWMOD returns to. -/
  caller : Caller
  /-- POWMOD's copy of the base (R87). -/
  bs : Word576
  /-- POWMOD's accumulator; between SEED's exponentiations, its working residue `t` (R87, R161). -/
  acc : Word576
  /-- POWMOD's copy of the exponent (R87). -/
  e : Operand
  /-- `i + 1` for R87's bit index `i` in -1 … 63: how many bits are still to scan. -/
  bits : Nat
  /-- The precision of the READ in progress. -/
  prec : Precision
  /-- Elements still to deliver (R143). -/
  rem : Nat
  /-- Index of the next output element (R143). -/
  o : Nat
  /-- Elements of an extracted batch on their way to the output port (R31). -/
  batch : List OutElem
  /-- ADV and EXT were entered from the tail phase, not from the bulk phase (R104, R150). -/
  inTail : Bool
  deriving DecidableEq, Repr

/-- `B` of the precision (R140). -/
def batchSize (p : Precision) : Nat :=
  match p with
  | .single => batchF
  | .double => batchD

/-- `CUR` of the precision (R140). -/
def cursorOf (p : Precision) (s : State) : Nat :=
  match p with
  | .single => s.fcur.val
  | .double => s.dcur.val

/-- `CUR <- c` (R140). -/
def setCursor (p : Precision) (c : Nat) (s : State) : State :=
  match p with
  | .single => { s with fcur := Fin.ofNat (batchF + 1) c }
  | .double => { s with dcur := Fin.ofNat (batchD + 1) c }

/-- `BUF` of the precision, as output elements (R140). -/
def bufferOf (p : Precision) (s : State) : List OutElem :=
  match p with
  | .single => s.fbuf.toList.map .single
  | .double => s.dbuf.toList.map .double

/-- `Extract(v)` of the precision, as output elements (R140). -/
def extractOf (p : Precision) (v : Word576) : List OutElem :=
  match p with
  | .single => (extractF v).toList.map .single
  | .double => (extractD v).toList.map .double

/-- `BUF <- Extract(v)` (R143). -/
def setBuffer (p : Precision) (v : Word576) (s : State) : State :=
  match p with
  | .single => { s with fbuf := extractF v }
  | .double => { s with dbuf := extractD v }

/-- Fault entry: the fault is recorded and the control state is FAULTED (R187). -/
def microFault (t : State) (m : Micro) : Micro := { m with core := t, ctl := .faulted }

/-- The command completes and the control state is IDLE (R27). -/
def microDone (t : State) (m : Micro) : Micro := { m with core := complete t, ctl := .idle }

/-- POWMOD is called: `bs <- base; e <- n` (R87). -/
def callPow (c : Caller) (base : Word576) (n : Operand) (m : Micro) : Micro :=
  { m with caller := c, bs := base, e := n, ctl := .pwInit }

/-- A READ begins: `rem = n`, `o = 0`, drain phase first (R143, R150). -/
def startRead (p : Precision) (n : Operand) (m : Micro) : Micro :=
  { m with prec := p, rem := operandValue n, o := 0, batch := [], ctl := .drain }

/-- One `OutWrite` of the READ in progress: element `o`, then `o` and `rem` move on (R143, R44). -/
def deliverOne (v : OutElem) (m : Micro) : Micro :=
  { m with core := outWrite m.o v m.core, o := m.o + 1, rem := m.rem - 1 }

/-- IDLE and FAULTED: the port takes the host's next action (R40, R187). Reset is asserted here between
commands; in the middle of one it is `microReset`. -/
def microPort (m : Micro) : Micro :=
  match m.core.host with
  | [] => m
  | .reset :: rest => { m with core := resetCore { m.core with host := rest }, ctl := .idle }
  | .present w :: rest =>
    if portOpen m.core then { m with core := accept { m.core with host := rest }, word := w, ctl := .decode }
    else { m with core := { m.core with host := rest } }

/-- A legal command starts; all but SEED need SEEDED (R184, R186). -/
def microStart (P : Params) (i : Instr) (m : Micro) : Micro :=
  match i with
  | .seed k p => callPow .seedMultiplier P.base p { m with seedOperand := k }
  | .readf n => startRead .single n m
  | .readd n => startRead .double n m
  | .jump n => callPow .jump P.base n m
  | .setskip n => callPow .setSkip P.base n m
  | .selprim => callPow .selPrim P.base primExponent m

/-- The command is SEED, the one command legal on an unseeded core (R184). -/
def isSeed (i : Instr) : Bool :=
  match i with
  | .seed _ _ => true
  | .readf _ => false
  | .readd _ => false
  | .jump _ => false
  | .setskip _ => false
  | .selprim => false

/-- DECODE (R186). -/
def microDecode (P : Params) (m : Micro) : Micro :=
  match decode m.word with
  | .error _ => microFault (raiseFault .illegalCommand m.core) m
  | .ok i =>
    if isSeed i || m.core.seeded then microStart P i m
    else microFault (raiseFault .notSeeded m.core) m

/-- PW_DONE: the result is `acc`, and the caller goes on (R87, R161, R165, R168, R169). -/
def microReturn (P : Params) (m : Micro) : Micro :=
  match m.caller with
  | .seedMultiplier =>
    callPow .seedFirst m.acc seedExponent { m with core := { m.core with a := m.acc, x := residueOne } }
  | .seedFirst => callPow .seedSecond m.acc seedExponent m
  | .seedSecond => callPow .seedBySeed m.acc m.seedOperand m
  | .seedBySeed =>
    match mulMod m.core.x m.acc with
    | some x => microDone { emptyBuffers { m.core with x := x } with seeded := true } m
    | none => microFault (raiseMulmod m.core) m
  | .jump =>
    match mulMod m.core.x m.acc with
    | some x => microDone (afterJump P { m.core with x := x }) m
    | none => microFault (raiseMulmod m.core) m
  | .setSkip => microDone { m.core with a := m.acc } m
  | .selPrim => microDone { m.core with a := addMod13 m.acc } m

/-- DRAIN: one leftover value, or on to BULK when none is left or none is wanted (R143, R150). -/
def microDrain (m : Micro) : Micro :=
  let c := cursorOf m.prec m.core
  match (bufferOf m.prec m.core)[c]? with
  | some v =>
    if 0 < m.rem then deliverOne v { m with core := setCursor m.prec (c + 1) m.core }
    else { m with ctl := .bulk }
  | none => { m with ctl := .bulk }

/-- BULK: deliver the batch at hand; then another one while `rem >= B`; then TAIL (R143, R150). -/
def microBulk (m : Micro) : Micro :=
  match m.batch with
  | v :: vs => deliverOne v { m with batch := vs }
  | [] =>
    if batchSize m.prec ≤ m.rem then { m with ctl := .adv, inTail := false }
    else { m with ctl := .tail }

/-- TAIL: deliver what is at hand; one more state when a remainder is left; then the command is done (R143,
R150). -/
def microTail (m : Micro) : Micro :=
  match m.batch with
  | v :: vs => deliverOne v { m with batch := vs }
  | [] =>
    if 0 < m.rem then { m with ctl := .adv, inTail := true }
    else microDone m.core m

/-- ADV: the request `(X, A)`, and `X <- r` (R104). -/
def microAdv (m : Micro) : Micro :=
  match advance m.core.x m.core.a with
  | some x => { m with core := { m.core with x := x }, ctl := .ext }
  | none => microFault (raiseMulmod m.core) m

/-- EXT: one extraction, in the bulk phase to the output, in the tail phase into the buffer with the cursor set
to the remainder (R143). -/
def microExt (m : Micro) : Micro :=
  let vs := extractOf m.prec m.core.x
  if m.inTail then
    { m with core := setCursor m.prec m.rem (setBuffer m.prec m.core.x m.core), batch := vs.take m.rem, ctl := .tail }
  else { m with batch := vs, ctl := .bulk }

/-- One transition of the control machine of a core with the parameters `P`. -/
def microWith (P : Params) (m : Micro) : Micro :=
  match m.ctl with
  | .idle => microPort m
  | .faulted => microPort m
  | .decode => microDecode P m
  | .pwInit =>
    if m.e = 0 then { m with acc := residueOne, ctl := .pwDone }
    else { m with acc := m.bs, bits := msb (operandValue m.e), ctl := .pwTest }
  | .pwTest => if m.bits = 0 then { m with ctl := .pwDone } else { m with ctl := .pwSqr }
  | .pwSqr =>
    match mulMod m.acc m.acc with
    | some r => { m with acc := r, ctl := if exponentBit m.e (m.bits - 1) then .pwMul else .pwNext }
    | none => microFault (raiseMulmod m.core) m
  | .pwMul =>
    match mulMod m.acc m.bs with
    | some r => { m with acc := r, ctl := .pwNext }
    | none => microFault (raiseMulmod m.core) m
  | .pwNext => { m with bits := m.bits - 1, ctl := .pwTest }
  | .pwDone => microReturn P m
  | .drain => microDrain m
  | .bulk => microBulk m
  | .tail => microTail m
  | .adv => microAdv m
  | .ext => microExt m

/-- One transition of the control machine (R104). -/
def microStep (m : Micro) : Micro := microWith Config.params m

/-- `k` transitions of the control machine of a core with the parameters `P`. -/
def microRunWith (P : Params) : Nat → Micro → Micro
  | 0, m => m
  | k + 1, m => microRunWith P k (microWith P m)

/-- `k` transitions of the control machine. -/
def microRun (k : Nat) (m : Micro) : Micro := microRunWith Config.params k m

/-- Reset asserted in the middle of a command (R200): the command is abandoned, what it delivered stays
delivered. -/
def microReset (m : Micro) : Micro := { m with core := resetCore m.core, ctl := .idle }

end Sys2Proof.Machine
end

