-- ==== Sys2Proof/Machine/Instance.lean ====
section
/-! DEFINITION. The same machine for given parameters: A_BASE and JUMP_RESETS_CURSORS taken as an argument (spec/00_scope.md R11, R13, R14). -/

namespace Sys2Proof.Machine

/-- What each command does on a core with the parameters `P`; `exec` is the case of the core's own parameters
(`exec_eq_execWith` in Laws/Step.lean). -/
def execWith (P : Params) (i : Instr) (s : State) : Result :=
  match i with
  | .seed k p => seedWith P k p s
  | .readf n => execReadf n s
  | .readd n => execReadd n s
  | .jump n => jumpWith P n s
  | .setskip n => setSkipWith P n s
  | .selprim => selPrimWith P s

/-- One step of a core with the parameters `P`. -/
def stepWith (P : Params) (s : State) : Result := stepBy (execWith P) s

/-- `k` steps of a core with the parameters `P`, stopping at the first fault or refusal. -/
def runWith (P : Params) : Nat → State → Result
  | 0, s => .next s
  | k + 1, s =>
    match stepWith P s with
    | .next t => runWith P k t
    | r => r

end Sys2Proof.Machine
end

