-- ==== Sys2Proof/Machine/Work.lean ====
section
/-! DEFINITION. The multiplier requests a command makes, in order (spec/40_modexp.md R81, R87, R90; spec/70_reset_and_hazards.md R210). A cross-check of the reference sequence: no state holds them and no port shows them (U15). -/

namespace Sys2Proof.Machine

/-- One request on the multiplier port: its two operands (R54). -/
abbrev MulRequest := Word576 × Word576

/-- The requests of POWMOD's loop with `i` bits left (R87). -/
def powLoopRequests (base : Word576) (n : Operand) : Nat → Word576 → List MulRequest
  | 0, _ => []
  | i + 1, acc =>
    let sq := mulValue acc acc
    if exponentBit n i then (acc, acc) :: (sq, base) :: powLoopRequests base n i (mulValue sq base)
    else (acc, acc) :: powLoopRequests base n i sq

/-- The requests of `PowMod(base, n)` (R86, R87). -/
def powRequests (base : Word576) (n : Operand) : List MulRequest :=
  if n = 0 then [] else powLoopRequests base n (msb (operandValue n)) base

/-- The result of `PowMod(base, n)` where it has one. -/
def powValue (base : Word576) (n : Operand) : Word576 := (powMod base n).getD 0

/-- The requests of `k` ADVANCE steps (R100, R101). -/
def advanceRequests (a : Word576) : Nat → Word576 → List MulRequest
  | 0, _ => []
  | k + 1, x => (x, a) :: advanceRequests a k (mulValue x a)

/-- How many ADVANCE steps a READ of `n` elements makes from cursor `c`: `ceil((n - avail) / B)` (R145). -/
def advanceCount (B c n : Nat) : Nat := (n - (B - c) + (B - 1)) / B

/-- The requests of a command on a seeded core, in order (R161, R165, R168, R169, R143). -/
def requests (P : Params) (s : State) (i : Instr) : List MulRequest :=
  match i with
  | .seed k p =>
    let a := powValue P.base p
    let t1 := powValue a seedExponent
    let t2 := powValue t1 seedExponent
    powRequests P.base p ++ powRequests a seedExponent ++ powRequests t1 seedExponent ++ powRequests t2 k
      ++ [(residueOne, powValue t2 k)]
  | .readf n => advanceRequests s.a (advanceCount batchF s.fcur.val (operandValue n)) s.x
  | .readd n => advanceRequests s.a (advanceCount batchD s.dcur.val (operandValue n)) s.x
  | .jump n => powRequests P.base n ++ [(s.x, powValue P.base n)]
  | .setskip n => powRequests P.base n
  | .selprim => powRequests P.base primExponent

/-- `popcount(v)` of an operand: how many of its 64 bits are set (R15). -/
def popcount (n : Operand) : Nat := (List.range 64).countP fun i => exponentBit n i

/-- `c(n)`: 0 for `n = 0`, else `msb(n) + popcount(n) - 1` (R90, R210). -/
def powWork (n : Operand) : Nat := if n = 0 then 0 else msb (operandValue n) + popcount n - 1

/-- R210's table: multiplier transactions per command. -/
def work (s : State) (i : Instr) : Nat :=
  match i with
  | .seed k p => powWork p + 48 + 48 + powWork k + 1
  | .readf n => advanceCount batchF s.fcur.val (operandValue n)
  | .readd n => advanceCount batchD s.dcur.val (operandValue n)
  | .jump n => powWork n + 1
  | .setskip n => powWork n
  | .selprim => 11

end Sys2Proof.Machine
end

