-- ==== Sys2Proof/Safety.lean ====
section
/-! DEFINITION. The terms claims are stated in: the residue invariant (spec/10_state.md R23), closed forms of states and reads (spec/41_advance.md R102, spec/43_bulk_reader.md R145, R146), the numbers that output patterns stand for (spec/42_extract.md R116, R124), and what no host can tell apart (R33, R146). -/

namespace Sys2Proof.Safety

open Sys2Proof.Machine

/-- A safe state between commands: no command is in progress; FAULT and FAULT_CODE agree; the multiplier's
precondition was never violated; and a seeded core holds two residues (R23, R29, R185). -/
structure Inv (s : State) : Prop where
  idle : s.busy = false
  fault_iff : s.fault = true ↔ s.faultCode ≠ .none
  no_precondition : s.faultCode ≠ .mulmodPrecondition
  x_residue : s.seeded = true → isResidue s.x = true
  a_residue : s.seeded = true → isResidue s.a = true

/-- `b^n mod M` with the integer power (R88 (a)). -/
def powNat (b : Word576) (n : Nat) : Word576 := residueOf (b.toNat ^ n)

/-- The state after `k` draws from `x` with the multiplier `a`: `x * a^k mod M` (R102). -/
def stateAfter (x a : Word576) (k : Nat) : Word576 := residueOf (x.toNat * a.toNat ^ k)

/-- Element `i` of a READ: a leftover entry while there are any, then field `j mod B` of the state after
`1 + j div B` draws, `j` counting from the first fresh element (R145, R146). -/
def readElem {w B : Nat} (extract : Word576 → Vector (BitVec w) B) (x a : Word576) (buf : Vector (BitVec w) B)
    (c i : Nat) : BitVec w :=
  if i < B - c then buf.toList.getD (c + i) 0
  else (extract (stateAfter x a (1 + (i - (B - c)) / B))).toList.getD ((i - (B - c)) % B) 0

/-- The output array of a READ of `n` elements (R44, R145, R146). -/
def readOut {w B : Nat} (extract : Word576 → Vector (BitVec w) B) (x a : Word576) (buf : Vector (BitVec w) B)
    (c n : Nat) : List (BitVec w) :=
  (List.range n).map (readElem extract x a buf c)

/-- Where the cursor ends (R145). -/
def cursorEnd (B c n : Nat) : Nat :=
  if n ≤ B - c then c + n
  else if (n - (B - c)) % B = 0 then B
  else (n - (B - c)) % B

/-- What the buffer holds after a READ: the last state's batch if there was a tail phase, else what it held
(R26, R145). -/
def bufferEnd {w B : Nat} (extract : Word576 → Vector (BitVec w) B) (x a : Word576) (buf : Vector (BitVec w) B)
    (c n : Nat) : Vector (BitVec w) B :=
  if n ≤ B - c ∨ (n - (B - c)) % B = 0 then buf
  else extract (stateAfter x a (advanceCount B c n))

/-- The patterns among output transactions, without their indices. -/
def elems (l : List OutWrite) : List OutElem := l.map OutWrite.elem

/-- The elements delivered between two states of one run, the first a state the second grew from. -/
def newElems (s t : State) : List OutElem := elems (t.out.drop s.out.length)

/-- The number a binary32 pattern stands for; for patterns with exponent bits all ones (infinities, NaN) it
means nothing. PRESUMED, U11; log 14. -/
def f32Value (v : F32) : ℚ :=
  (if v.getLsbD 31 then -1 else 1) *
    (if (v.extractLsb' 23 8).toNat = 0 then ((v.extractLsb' 0 23).toNat : ℚ) / 2 ^ 149
     else (2 ^ 23 + ((v.extractLsb' 0 23).toNat : ℚ)) * 2 ^ (v.extractLsb' 23 8).toNat / 2 ^ 150)

/-- The pattern is a finite number (U11). -/
def f32Finite (v : F32) : Bool := (v.extractLsb' 23 8).toNat ≠ 255

/-- The number a binary64 pattern stands for; for patterns with exponent bits all ones it means nothing.
PRESUMED, U11; log 14. -/
def f64Value (v : F64) : ℚ :=
  (if v.getLsbD 63 then -1 else 1) *
    (if (v.extractLsb' 52 11).toNat = 0 then ((v.extractLsb' 0 52).toNat : ℚ) / 2 ^ 1074
     else (2 ^ 52 + ((v.extractLsb' 0 52).toNat : ℚ)) * 2 ^ (v.extractLsb' 52 11).toNat / 2 ^ 1075)

/-- The pattern is a finite number (U11). -/
def f64Finite (v : F64) : Bool := (v.extractLsb' 52 11).toNat ≠ 2047

/-- The commands in order, each from the state the one before left (R49); nothing if one of them stops. -/
def execAll : List Instr → State → Option State
  | [], s => some s
  | i :: is, s =>
    match exec i s with
    | .next t => execAll is t
    | .fault _ => none
    | .refused _ => none

/-- Two buffers agree on their undelivered entries, from the cursor on (R24, R25). -/
def sameFrom {α : Type} {B : Nat} (c : Nat) (b b' : Vector α B) : Prop := b.toList.drop c = b'.toList.drop c

/-- Two states a host cannot tell apart from here on: the same flags, the same actions to come, the same free
values to come, and, once seeded, the same `X`, `A`, cursors and undelivered buffer entries. The delivered
entries, and on an unseeded core all of `X`, `A`, cursors and buffers, may differ (R33, R146, U3); so may what
was delivered before. -/
structure Same (s t : State) : Prop where
  seeded : s.seeded = t.seeded
  fault : s.fault = t.fault
  faultCode : s.faultCode = t.faultCode
  busy : s.busy = t.busy
  host : s.host = t.host
  freeCount : s.freeCount = t.freeCount
  x : s.seeded = true → s.x = t.x
  a : s.seeded = true → s.a = t.a
  fcur : s.seeded = true → s.fcur = t.fcur
  dcur : s.seeded = true → s.dcur = t.dcur
  fbuf : s.seeded = true → sameFrom s.fcur.val s.fbuf t.fbuf
  dbuf : s.seeded = true → sameFrom s.dcur.val s.dbuf t.dbuf

end Sys2Proof.Safety
end

