-- ==== Sys2Proof/Certificates/Slice0/Obligations.lean ====
section
/-! DEFINITION. The statements about the model, for the provers. -/

open Sys2Proof Sys2Proof.Machine Sys2Proof.Safety

/-! ### Encoding (spec/30_encoding.md) -/

/-- R65: decoding the encoding of any command, every operand at any value, gives it back. -/
def Obligations.DecodeOfEncode : Prop := ∀ i : Instr, decode (encode i) = .ok i

/-- R65: encoding what a legal word decodes to gives the word back, so no bit of a legal word is dropped. -/
def Obligations.EncodeOfDecode : Prop := ∀ (w : CmdWord) (i : Instr), decode w = .ok i → encode i = w

/-- R64: a word is illegal exactly when its opcode is not `0x01 … 0x06` or a reserved field is not zero. -/
def Obligations.IllegalWordsExactly : Prop :=
  ∀ w : CmdWord,
    ((∃ e, decode w = .error e) ↔
      (w.extractLsb' 128 8).toNat = 0 ∨ 6 < (w.extractLsb' 128 8).toNat ∨
      ((w.extractLsb' 128 8).toNat ≠ 1 ∧ w.extractLsb' 64 64 ≠ 0) ∨
      ((w.extractLsb' 128 8).toNat = 6 ∧ w.extractLsb' 0 64 ≠ 0)) ∧
    (decoded w).isSome = (fieldsOf w).legal

/-- R62: a legal word selects, by match and mask, exactly the row of the command it decodes to; an illegal word
selects no row. -/
def Obligations.OneRowPerLegalWord : Prop :=
  ∀ w : CmdWord,
    opcodeTable.filter (fun r => r.selects w) =
      match decode w with
      | .ok i => [i.row]
      | .error _ => []

/-- R69: the spec's worked encodings. -/
def Obligations.WorkedEncodings : Prop :=
  decode 0x0100000000000000000000000000000001 = .ok (.seed 1 0) ∧
  decode 0x0100000000000008000000000000000001 = .ok (.seed 1 2048) ∧
  decode 0x0200000000000000000000000000000018 = .ok (.readf 24) ∧
  decode 0x030000000000000000000000000000000B = .ok (.readd 11) ∧
  decode 0x04000000000000000000000000000003E8 = .ok (.jump 1000) ∧
  decode 0x0500000000000000000000000000000800 = .ok (.setskip 2048) ∧
  decode 0x0600000000000000000000000000000000 = .ok .selprim

/-! ### The multiplier and the exponentiation engine (spec/40_modexp.md) -/

/-- R80: the contract of MULMOD, its corner cases and its example. -/
def Obligations.MulModContract : Prop :=
  (∀ a b : Word576, a.toNat < 2 ^ 576 - 2 ^ 240 + 1 → b.toNat < 2 ^ 576 - 2 ^ 240 + 1 →
    ∃ r, mulMod a b = some r ∧ r.toNat = a.toNat * b.toNat % (2 ^ 576 - 2 ^ 240 + 1) ∧
      mulMod a 0 = some 0 ∧ mulMod a residueOne = some a) ∧
  mulMod (BitVec.ofNat 576 (modulus - 1)) (BitVec.ofNat 576 (modulus - 1)) = some residueOne ∧
  mulMod (BitVec.ofNat 576 (2 ^ 575)) 2 = some (BitVec.ofNat 576 (2 ^ 240 - 1))

/-- R81, R83: the algebraic laws of MULMOD on residues, and no result at all for an operand that is none. -/
def Obligations.MulModLaws : Prop :=
  (∀ a b : Word576, mulMod a b = mulMod b a) ∧
  (∀ a b r : Word576, mulMod a b = some r → isResidue r = true) ∧
  (∀ a b c : Word576, isResidue a = true → isResidue b = true → isResidue c = true →
    (mulMod a b).bind (fun u => mulMod u c) = (mulMod b c).bind (fun v => mulMod a v)) ∧
  (∀ a b : Word576, (isResidue a = false ∨ isResidue b = false) ↔ mulMod a b = none)

/-- R85, R88 (a): POWMOD computes the integer power modulo `M`. -/
def Obligations.PowModIsModularPower : Prop :=
  ∀ (b : Word576) (n : Operand), isResidue b = true → powMod b n = some (powNat b n.toNat)

/-- R86: exponent zero yields ONE for every base, without a request. -/
def Obligations.PowModZeroExponent : Prop :=
  ∀ b : Word576, powMod b 0 = some residueOne ∧ powRequests b 0 = []

/-- R88 (b) to (f): the laws of POWMOD; in (c) and (d) product and sum of the exponents are the integers', not
reduced to 64 bits, and in (f) request `j` of `PowMod(b, 2^k)` squares `b^(2^j)`, for each `j < k` in order. -/
def Obligations.PowModLaws : Prop :=
  (∀ b : Word576, powMod b 1 = some b) ∧
  (∀ n : Operand, powMod residueOne n = some residueOne) ∧
  (∀ n : Operand, n ≠ 0 → powMod 0 n = some 0) ∧
  (∀ (b : Word576) (i j : Operand), isResidue b = true →
    (powMod b i).bind (fun u => powMod u j) = some (powNat b (i.toNat * j.toNat))) ∧
  (∀ (b : Word576) (i j : Operand), isResidue b = true →
    (powMod b i).bind (fun u => (powMod b j).bind (fun v => mulMod u v)) = some (powNat b (i.toNat + j.toNat))) ∧
  (∀ (b c : Word576) (n : Operand), isResidue b = true → isResidue c = true →
    (mulMod b c).bind (fun u => powMod u n) = (powMod b n).bind (fun u => (powMod c n).bind (fun v => mulMod u v))) ∧
  (∀ (b : Word576) (k : Nat), k ≤ 63 →
    (powRequests b (BitVec.ofNat 64 (2 ^ k))).length = k ∧ ∀ r ∈ powRequests b (BitVec.ofNat 64 (2 ^ k)), r.1 = r.2) ∧
  (∀ (b : Word576) (k : Nat), isResidue b = true → k ≤ 63 →
    powRequests b (BitVec.ofNat 64 (2 ^ k)) = (List.range k).map fun j => (powNat b (2 ^ j), powNat b (2 ^ j)))

/-- R90, R210: how many multiplier requests POWMOD and each command make in the reference sequence, and the
bounds the spec gives. -/
def Obligations.WorkPerCommand : Prop :=
  (∀ (b : Word576) (n : Operand), (powRequests b n).length = powWork n) ∧
  (∀ (P : Params) (s : State) (i : Instr), (requests P s i).length = work s i) ∧
  (∀ (s : State) (k p : Operand), work s (.seed k p) ≤ 349) ∧
  (∀ (s : State) (n : Operand), work s (.jump n) ≤ 127) ∧
  (∀ (s : State) (n : Operand), work s (.setskip n) ≤ 126)

/-- R23, R81, R185: every request a command makes from residues carries two residues; POWMOD has a result exactly when
each of its requests does; and on a seeded core a command raises MulmodPrecondition exactly when one of its requests
carries an operand that is no residue. -/
def Obligations.RequestsAreResidues : Prop :=
  (∀ (P : Params) (s : State) (i : Instr), isResidue s.x = true → isResidue s.a = true →
    ∀ r ∈ requests P s i, isResidue r.1 = true ∧ isResidue r.2 = true) ∧
  (∀ (b : Word576) (n : Operand), (powMod b n).isSome = true ↔
    ∀ r ∈ powRequests b n, isResidue r.1 = true ∧ isResidue r.2 = true) ∧
  (∀ (i : Instr) (s : State), s.seeded = true → s.faultCode ≠ .mulmodPrecondition →
    ∃ t, exec i s = .next t ∧ (t.faultCode = .mulmodPrecondition ↔
      ∃ r ∈ requests Config.params s i, isResidue r.1 = false ∨ isResidue r.2 = false))

/-! ### The state-advance step (spec/41_advance.md) -/

/-- R100: one ADVANCE, with the spec's two examples. -/
def Obligations.AdvanceStep : Prop :=
  (∀ x a : Word576, isResidue x = true → isResidue a = true →
    ∃ x', advance x a = some x' ∧ x'.toNat = x.toNat * a.toNat % modulus) ∧
  advance 3 5 = some 15 ∧
  advance (BitVec.ofNat 576 (modulus - 1)) 2 = some (BitVec.ofNat 576 (modulus - 2))

/-- R102, R103: `k` draws multiply by `A^k`, for every `k`; for a 64-bit `k` that is one POWMOD and one MULMOD; and
the degenerate multipliers and states. -/
def Obligations.DrawsClosedForm : Prop :=
  (∀ (x a : Word576) (k : Nat), isResidue x = true → isResidue a = true →
    (fun o : Option Word576 => o.bind fun v => advance v a)^[k] (some x) = some (stateAfter x a k)) ∧
  (∀ (x a : Word576) (k : Operand), isResidue x = true → isResidue a = true →
    (powMod a k).bind (fun t => mulMod x t) = some (stateAfter x a k.toNat)) ∧
  (∀ (x : Word576) (k : Nat), isResidue x = true → stateAfter x residueOne k = x) ∧
  (∀ (a : Word576) (k : Nat), stateAfter 0 a k = 0) ∧
  (∀ x : Word576, isResidue x = true → advance x 0 = some 0)

/-! ### The field extractor (spec/42_extract.md) -/

/-- R112, R113, R115, R120, R121, R126: which bits of the state each element of a batch is made from. -/
def Obligations.BatchElements : Prop :=
  (∀ (v : Word576) (k : Nat) (h : k < 24), (extractF v)[k]'h = f32bits (BitVec.ofNat 24 (v.toNat / 2 ^ (24 * k)))) ∧
  (∀ (v : Word576) (j : Nat) (h : j < 11), (extractD v)[j]'h = f64bits (BitVec.ofNat 52 (v.toNat / 2 ^ (52 * j))))

/-- R114 (the spec derives it from R112): the eight fields of each 192-bit group, limb by limb. -/
def Obligations.SingleFieldLimbs : Prop :=
  ∀ (v : Word576) (g : Nat), g < 3 →
    ffield v (8 * g) = (limb v (3 * g)).extractLsb' 0 24 ∧
    ffield v (8 * g + 1) = (limb v (3 * g)).extractLsb' 24 24 ∧
    ffield v (8 * g + 2) = (limb v (3 * g + 1)).extractLsb' 0 8 ++ (limb v (3 * g)).extractLsb' 48 16 ∧
    ffield v (8 * g + 3) = (limb v (3 * g + 1)).extractLsb' 8 24 ∧
    ffield v (8 * g + 4) = (limb v (3 * g + 1)).extractLsb' 32 24 ∧
    ffield v (8 * g + 5) = (limb v (3 * g + 2)).extractLsb' 0 16 ++ (limb v (3 * g + 1)).extractLsb' 56 8 ∧
    ffield v (8 * g + 6) = (limb v (3 * g + 2)).extractLsb' 16 24 ∧
    ffield v (8 * g + 7) = (limb v (3 * g + 2)).extractLsb' 40 24

/-- R122 (the spec derives it from R120): the eleven 52-bit fields as 64-bit shifts of limbs, ORed and masked. -/
def Obligations.DoubleFieldLimbs : Prop :=
  ∀ v : Word576,
    dfield v 0 = (limb v 0).setWidth 52 ∧
    dfield v 1 = (limb v 0 >>> 52 ||| limb v 1 <<< 12).setWidth 52 ∧
    dfield v 2 = (limb v 1 >>> 40 ||| limb v 2 <<< 24).setWidth 52 ∧
    dfield v 3 = (limb v 2 >>> 28 ||| limb v 3 <<< 36).setWidth 52 ∧
    dfield v 4 = (limb v 3 >>> 16 ||| limb v 4 <<< 48).setWidth 52 ∧
    dfield v 5 = (limb v 4 >>> 4).setWidth 52 ∧
    dfield v 6 = (limb v 4 >>> 56 ||| limb v 5 <<< 8).setWidth 52 ∧
    dfield v 7 = (limb v 5 >>> 44 ||| limb v 6 <<< 20).setWidth 52 ∧
    dfield v 8 = (limb v 6 >>> 32 ||| limb v 7 <<< 32).setWidth 52 ∧
    dfield v 9 = (limb v 7 >>> 20 ||| limb v 8 <<< 44).setWidth 52 ∧
    dfield v 10 = (limb v 8 >>> 8).setWidth 52

/-- R116 with the format of U11 (PRESUMED, log 14): a single-precision pattern stands for exactly `f / 2^24`. -/
def Obligations.SinglePatternExact : Prop :=
  ∀ f : BitVec 24, f32Finite (f32bits f) = true ∧ f32Value (f32bits f) = (f.toNat : ℚ) / 2 ^ 24

/-- R117 with the format of U11 (PRESUMED, log 14): every single-precision output lies in `[0, 1)`; it is `+0.0` or
has an exponent field from 103 to 126; different fields give different patterns. -/
def Obligations.SinglePatternRange : Prop :=
  (∀ f : BitVec 24, 0 ≤ f32Value (f32bits f) ∧ f32Value (f32bits f) < 1) ∧
  (∀ f : BitVec 24, f32bits f = 0 ∨
    (103 ≤ ((f32bits f).extractLsb' 23 8).toNat ∧ ((f32bits f).extractLsb' 23 8).toNat ≤ 126 ∧
      (f32bits f).getLsbD 31 = false)) ∧
  (∀ f g : BitVec 24, f32bits f = f32bits g → f = g)

/-- R121, R123, R124 with the format of U11 (PRESUMED, log 14): the construction makes the pattern of
`1 + f / 2^52`, and the subtraction of 1.0 is exact and is `f64bits`. -/
def Obligations.DoublePatternExact : Prop :=
  ∀ f : BitVec 52,
    f64Value (onePlus f) = 1 + (f.toNat : ℚ) / 2 ^ 52 ∧
    subOne (onePlus f) = f64bits f ∧
    f64Finite (f64bits f) = true ∧
    f64Value (subOne (onePlus f)) = f64Value (onePlus f) - 1 ∧
    f64Value (f64bits f) = (f.toNat : ℚ) / 2 ^ 52

/-- R125 with the format of U11 (PRESUMED, log 14): every double-precision output lies in `[0, 1)`; it is `+0.0` or has
an exponent field from 971 to 1022; different fields give different patterns. -/
def Obligations.DoublePatternRange : Prop :=
  (∀ f : BitVec 52, 0 ≤ f64Value (f64bits f) ∧ f64Value (f64bits f) < 1) ∧
  (∀ f : BitVec 52, f64bits f = 0 ∨
    (971 ≤ ((f64bits f).extractLsb' 52 11).toNat ∧ ((f64bits f).extractLsb' 52 11).toNat ≤ 1022 ∧
      (f64bits f).getLsbD 63 = false)) ∧
  (∀ f g : BitVec 52, f64bits f = f64bits g → f = g)

/-- R112, R120: a single-precision batch uses every bit of the state, so it tells states apart; a double-precision
batch uses exactly the low 572 bits. -/
def Obligations.BatchDeterminesState : Prop :=
  (∀ v v' : Word576, extractF v = extractF v' → v = v') ∧
  (∀ v v' : Word576, extractD v = extractD v' ↔ v.extractLsb' 0 572 = v'.extractLsb' 0 572)

/-! ### The bulk reader (spec/43_bulk_reader.md) -/

/-- R141, R143, R145: on a seeded core holding residues READF completes, for every count and cursor: the number of
draws, the cursor, the buffer and every delivered element in closed form, all else unchanged. -/
def Obligations.ReadfResult : Prop :=
  ∀ (n : Operand) (s : State), s.seeded = true → isResidue s.x = true → isResidue s.a = true →
    exec (.readf n) s = .next { s with
      x := stateAfter s.x s.a (advanceCount 24 s.fcur.val n.toNat)
      fcur := Fin.ofNat 25 (cursorEnd 24 s.fcur.val n.toNat)
      fbuf := bufferEnd extractF s.x s.a s.fbuf s.fcur.val n.toNat
      out := s.out ++ outWritesFrom 0 ((readOut extractF s.x s.a s.fbuf s.fcur.val n.toNat).map .single)
      busy := false }

/-- R142, R143, R145: the same for READD. -/
def Obligations.ReaddResult : Prop :=
  ∀ (n : Operand) (s : State), s.seeded = true → isResidue s.x = true → isResidue s.a = true →
    exec (.readd n) s = .next { s with
      x := stateAfter s.x s.a (advanceCount 11 s.dcur.val n.toNat)
      dcur := Fin.ofNat 12 (cursorEnd 11 s.dcur.val n.toNat)
      dbuf := bufferEnd extractD s.x s.a s.dbuf s.dcur.val n.toNat
      out := s.out ++ outWritesFrom 0 ((readOut extractD s.x s.a s.dbuf s.dcur.val n.toNat).map .double)
      busy := false }

/-- R145, first case: a READ of no more than the leftover values makes no draw, whatever `X` and `A` hold. -/
def Obligations.ReadFromBuffer : Prop :=
  (∀ (n : Operand) (s : State), s.seeded = true → n.toNat ≤ 24 - s.fcur.val →
    exec (.readf n) s = .next { s with
      fcur := Fin.ofNat 25 (s.fcur.val + n.toNat)
      out := s.out ++ outWritesFrom 0 (((s.fbuf.toList.drop s.fcur.val).take n.toNat).map .single)
      busy := false }) ∧
  (∀ (n : Operand) (s : State), s.seeded = true → n.toNat ≤ 11 - s.dcur.val →
    exec (.readd n) s = .next { s with
      dcur := Fin.ofNat 12 (s.dcur.val + n.toNat)
      out := s.out ++ outWritesFrom 0 (((s.dbuf.toList.drop s.dcur.val).take n.toNat).map .double)
      busy := false })

/-- R144: `READF 0` and `READD 0` deliver nothing and change nothing; on an unseeded core they raise NotSeeded. -/
def Obligations.ReadOfZero : Prop :=
  ∀ (s : State) (w : CmdWord) (rest : List HostAction), s.host = .present w :: rest → portOpen s = true →
    (decode w = .ok (.readf 0) ∨ decode w = .ok (.readd 0)) →
    (s.seeded = true → step s = .next { s with host := rest }) ∧
    (s.seeded = false → step s = .next { s with host := rest, fault := true, faultCode := .notSeeded })

/-- R44, R49 (c): a READ of `n` elements makes exactly the transactions with the indices 0 to n-1, in that order, each
once, all of its own width; no other command makes any. -/
def Obligations.OutWriteIndices : Prop :=
  (∀ (n : Operand) (s : State), s.seeded = true → isResidue s.x = true → isResidue s.a = true →
    ∃ (t : State) (l : List OutWrite), exec (.readf n) s = .next t ∧ t.out = s.out ++ l ∧
      l.map OutWrite.index = List.range n.toNat ∧ ∀ e ∈ l, ∃ v, e.elem = .single v) ∧
  (∀ (n : Operand) (s : State), s.seeded = true → isResidue s.x = true → isResidue s.a = true →
    ∃ (t : State) (l : List OutWrite), exec (.readd n) s = .next t ∧ t.out = s.out ++ l ∧
      l.map OutWrite.index = List.range n.toNat ∧ ∀ e ∈ l, ∃ v, e.elem = .double v) ∧
  (∀ (P : Params) (k p n : Operand) (i : Instr) (s t : State),
    i = .seed k p ∨ i = .jump n ∨ i = .setskip n ∨ i = .selprim → execWith P i s = .next t → t.out = s.out)

/-- R146: reading `n1` then `n2` single-precision values delivers what reading `n1 + n2` at once delivers, and leaves
the same `X`, cursor and undelivered entries. -/
def Obligations.ReadfBatching : Prop :=
  ∀ (n1 n2 : Operand) (s : State), s.seeded = true → isResidue s.x = true → isResidue s.a = true →
    n1.toNat + n2.toNat < 2 ^ 64 →
    ∃ t1 t2 t, exec (.readf n1) s = .next t1 ∧ exec (.readf n2) t1 = .next t2 ∧ exec (.readf (n1 + n2)) s = .next t ∧
      newElems s t2 = newElems s t ∧ t2.x = t.x ∧ t2.fcur = t.fcur ∧ sameFrom t.fcur.val t2.fbuf t.fbuf

/-- R146 for the double-precision reader. -/
def Obligations.ReaddBatching : Prop :=
  ∀ (n1 n2 : Operand) (s : State), s.seeded = true → isResidue s.x = true → isResidue s.a = true →
    n1.toNat + n2.toNat < 2 ^ 64 →
    ∃ t1 t2 t, exec (.readd n1) s = .next t1 ∧ exec (.readd n2) t1 = .next t2 ∧ exec (.readd (n1 + n2)) s = .next t ∧
      newElems s t2 = newElems s t ∧ t2.x = t.x ∧ t2.dcur = t.dcur ∧ sameFrom t.dcur.val t2.dbuf t.dbuf

/-- R146, R147, R162: after SEED, any READF commands together deliver one fixed stream: value `j` is field `j mod 24` of
the state after `1 + j div 24` draws, so the state SEED left is itself never extracted. -/
def Obligations.SingleStreamAfterSeed : Prop :=
  ∀ (k p : Operand) (ns : List Operand) (s : State),
    ∃ t0 t, exec (.seed k p) s = .next t0 ∧ execAll (ns.map .readf) t0 = some t ∧
      newElems t0 t = (List.range (ns.map BitVec.toNat).sum).map fun j =>
        .single (f32bits (ffield (stateAfter (powNat Config.params.base (p.toNat * 2 ^ 96 * k.toNat))
          (powNat Config.params.base p.toNat) (1 + j / 24)) (j % 24)))

/-- R146, R147, R162: the same for READD commands, with 11 values to a state. -/
def Obligations.DoubleStreamAfterSeed : Prop :=
  ∀ (k p : Operand) (ns : List Operand) (s : State),
    ∃ t0 t, exec (.seed k p) s = .next t0 ∧ execAll (ns.map .readd) t0 = some t ∧
      newElems t0 t = (List.range (ns.map BitVec.toNat).sum).map fun j =>
        .double (f64bits (dfield (stateAfter (powNat Config.params.base (p.toNat * 2 ^ 96 * k.toNat))
          (powNat Config.params.base p.toNat) (1 + j / 11)) (j % 11)))

/-- R148, R205: leftover values of one precision survive a read of the other and are delivered by the next read of
their own. -/
def Obligations.ReadersBufferSeparately : Prop :=
  (∀ (n m : Operand) (s : State), s.seeded = true → isResidue s.x = true → isResidue s.a = true →
    m.toNat ≤ 24 - s.fcur.val →
    ∃ t u v, exec (.readd n) s = .next t ∧ exec (.readf m) t = .next u ∧ exec (.readf m) s = .next v ∧
      newElems t u = newElems s v) ∧
  (∀ (n m : Operand) (s : State), s.seeded = true → isResidue s.x = true → isResidue s.a = true →
    m.toNat ≤ 11 - s.dcur.val →
    ∃ t u v, exec (.readf n) s = .next t ∧ exec (.readd m) t = .next u ∧ exec (.readd m) s = .next v ∧
      newElems t u = newElems s v)

/-- R185, R187, R143: a READ that needs a draw on a core where `X` or `A` is no residue, or a JUMP where `X` is none, raises
MulmodPrecondition; a READ has by then delivered its leftover values and nothing else. No run of a core reaches such
a state (see the invariant). -/
def Obligations.RefusedRequestFaults : Prop :=
  (∀ (n : Operand) (s : State), s.seeded = true → ¬(isResidue s.x = true ∧ isResidue s.a = true) →
    24 - s.fcur.val < n.toNat →
    ∃ t, exec (.readf n) s = .next t ∧ t.fault = true ∧ t.faultCode = .mulmodPrecondition ∧ t.busy = false ∧
      t.seeded = true ∧ t.out = s.out ++ outWritesFrom 0 ((s.fbuf.toList.drop s.fcur.val).map .single)) ∧
  (∀ (n : Operand) (s : State), s.seeded = true → ¬(isResidue s.x = true ∧ isResidue s.a = true) →
    11 - s.dcur.val < n.toNat →
    ∃ t, exec (.readd n) s = .next t ∧ t.fault = true ∧ t.faultCode = .mulmodPrecondition ∧ t.busy = false ∧
      t.seeded = true ∧ t.out = s.out ++ outWritesFrom 0 ((s.dbuf.toList.drop s.dcur.val).map .double)) ∧
  (∀ (n : Operand) (s : State), s.seeded = true → isResidue s.x = false →
    ∃ t, exec (.jump n) s = .next t ∧ t.fault = true ∧ t.faultCode = .mulmodPrecondition ∧ t.busy = false ∧
      t.seeded = true ∧ t.out = s.out)

/-! ### The configuration commands (spec/44_config.md) -/

/-- R161, R162, R164: SEED completes in every state, seeded or not, with the closed forms of `A` and `X`, both buffers
empty, SEEDED set, and all else unchanged. -/
def Obligations.SeedResult : Prop :=
  ∀ (k p : Operand) (s : State),
    exec (.seed k p) s = .next { s with
      a := powNat Config.params.base p.toNat
      x := powNat Config.params.base (p.toNat * 2 ^ 96 * k.toNat)
      fcur := 24
      dcur := 11
      seeded := true
      busy := false }

/-- R163: the corner cases of SEED, and how the starting points of neighbouring seeds lie: `2^96` draws apart. -/
def Obligations.SeedCornerCases : Prop :=
  (∀ (p : Operand) (s t : State), exec (.seed 0 p) s = .next t → t.x = residueOne) ∧
  (∀ (k : Operand) (s t : State), exec (.seed k 0) s = .next t → t.a = residueOne ∧ t.x = residueOne) ∧
  (∀ (k : Operand) (s t : State), exec (.seed k 1) s = .next t → t.a = Config.params.base) ∧
  (∀ (k p : Operand) (s t t' : State), k.toNat + 1 < 2 ^ 64 → exec (.seed k p) s = .next t →
    exec (.seed (k + 1) p) s = .next t' → t'.x = stateAfter t.x t.a (2 ^ 96))

/-- R13, R165, R166: JUMP completes on a seeded core whose `X` is a residue: `X` times `A_BASE^n`, all else unchanged: the
cursors too on the core that `exec` runs, where JUMP_RESETS_CURSORS is the default; and both cursors say empty on a core
instantiated with it true. -/
def Obligations.JumpResult : Prop :=
  (∀ (n : Operand) (s : State), s.seeded = true → isResidue s.x = true →
    exec (.jump n) s = .next { s with x := stateAfter s.x Config.params.base n.toNat, busy := false }) ∧
  (∀ (P : Params) (n : Operand) (s : State), s.seeded = true → isResidue s.x = true →
    execWith P (.jump n) s = .next { s with
      x := stateAfter s.x P.base n.toNat
      fcur := if P.jumpResetsCursors then 24 else s.fcur
      dcur := if P.jumpResetsCursors then 11 else s.dcur
      busy := false })

/-- R165: two jumps are one jump by the integer sum, also beyond 64 bits; `JUMP 0` leaves `X`; for any parameters
(`exec` is the case of `Config.params`). -/
def Obligations.JumpsAdd : Prop :=
  ∀ (P : Params) (i j : Operand) (s : State), s.seeded = true → isResidue s.x = true →
    (∃ t u, execWith P (.jump i) s = .next t ∧ execWith P (.jump j) t = .next u ∧
      u.x = stateAfter s.x P.base (i.toNat + j.toNat)) ∧
    (∃ t, execWith P (.jump 0) s = .next t ∧ t.x = s.x)

/-- R167: where `A = A_BASE` and the buffer read is empty, JUMP by `n` and reading one batch delivers the batch that
comes after discarding `n` batches, and leaves the same `X` and cursor; in either precision, for any parameters (`exec`
is the case of `Config.params`). -/
def Obligations.JumpEquivalence : Prop :=
  (∀ (P : Params) (n : Operand) (s : State), s.seeded = true → isResidue s.x = true → s.a = P.base → s.fcur = 24 →
    24 * n.toNat < 2 ^ 64 →
    ∃ t1 t2 u1 u2, execWith P (.jump n) s = .next t1 ∧ execWith P (.readf 24) t1 = .next t2 ∧
      execWith P (.readf (24 * n)) s = .next u1 ∧ execWith P (.readf 24) u1 = .next u2 ∧
      newElems t1 t2 = newElems u1 u2 ∧ t2.x = u2.x ∧ t2.fcur = u2.fcur) ∧
  (∀ (P : Params) (n : Operand) (s : State), s.seeded = true → isResidue s.x = true → s.a = P.base → s.dcur = 11 →
    11 * n.toNat < 2 ^ 64 →
    ∃ t1 t2 u1 u2, execWith P (.jump n) s = .next t1 ∧ execWith P (.readd 11) t1 = .next t2 ∧
      execWith P (.readd (11 * n)) s = .next u1 ∧ execWith P (.readd 11) u1 = .next u2 ∧
      newElems t1 t2 = newElems u1 u2 ∧ t2.x = u2.x ∧ t2.dcur = u2.dcur)

/-- R166, R203, R204: values of either precision buffered before a JUMP (of a core that leaves the cursors), a SETSKIP or a
SELPRIM are still delivered after it; a core instantiated to reset the cursors empties both buffers at a JUMP. -/
def Obligations.StaleBuffers : Prop :=
  ∀ (P : Params) (n m : Operand) (s : State) (i : Instr), s.seeded = true → isResidue s.x = true →
    (i = .jump n ∨ i = .setskip n ∨ i = .selprim) →
    ((i ≠ .jump n ∨ P.jumpResetsCursors = false) → m.toNat ≤ 24 - s.fcur.val →
      ∃ t u v, execWith P i s = .next t ∧ execWith P (.readf m) t = .next u ∧ execWith P (.readf m) s = .next v ∧
        newElems t u = newElems s v) ∧
    ((i ≠ .jump n ∨ P.jumpResetsCursors = false) → m.toNat ≤ 11 - s.dcur.val →
      ∃ t u v, execWith P i s = .next t ∧ execWith P (.readd m) t = .next u ∧ execWith P (.readd m) s = .next v ∧
        newElems t u = newElems s v) ∧
    (i = .jump n → P.jumpResetsCursors = true →
      ∃ t, execWith P i s = .next t ∧ t.fcur = 24 ∧ t.dcur = 11)

/-- R168: SETSKIP completes on every seeded core: `A` is written, all else unchanged. -/
def Obligations.SetSkipResult : Prop :=
  ∀ (n : Operand) (s : State), s.seeded = true →
    exec (.setskip n) s = .next { s with a := powNat Config.params.base n.toNat, busy := false }

/-- R169: SELPRIM completes on every seeded core: `A` is `A_BASE^2048 + 13 mod M`, all else unchanged; and for
`A_BASE = ONE` that is 14. -/
def Obligations.SelPrimResult : Prop :=
  (∀ s : State, s.seeded = true →
    exec .selprim s = .next { s with
      a := residueOf (Config.params.base.toNat ^ 2048 + 13), busy := false }) ∧
  (∀ (P : Params) (s : State), s.seeded = true → P.base = residueOne →
    execWith P .selprim s = .next { s with a := 14, busy := false })

/-- R170: AddMod13 is `t + 13 mod M`, by one conditional subtraction; with the spec's examples. -/
def Obligations.AddModThirteen : Prop :=
  (∀ t : Word576, isResidue t = true →
    (addMod13 t).toNat = (t.toNat + 13) % modulus ∧
    (t.toNat < modulus - 13 → (addMod13 t).toNat = t.toNat + 13) ∧
    (modulus - 13 ≤ t.toNat → (addMod13 t).toNat = t.toNat + 13 - modulus ∧ (addMod13 t).toNat ≤ 12)) ∧
  addMod13 0 = 13 ∧
  addMod13 (BitVec.ofNat 576 (modulus - 14)) = BitVec.ofNat 576 (modulus - 1) ∧
  addMod13 (BitVec.ofNat 576 (modulus - 13)) = 0 ∧
  addMod13 (BitVec.ofNat 576 (modulus - 1)) = 12

/-- R34, R171: what each command leaves alone whenever it answers a next state, in a state whose registers are residues
if it is seeded: every element of the matrix marked untouched, and the flags on a core where it may run; of JUMP, also
on a core with any parameters. -/
def Obligations.CommandsTouchOnly : Prop :=
  ∀ (k p n : Operand) (s t : State), (s.seeded = true → isResidue s.x = true ∧ isResidue s.a = true) →
    (exec (.seed k p) s = .next t →
      t.fbuf = s.fbuf ∧ t.dbuf = s.dbuf ∧ t.fault = s.fault ∧ t.faultCode = s.faultCode ∧ t.out = s.out ∧
      t.host = s.host ∧ t.freeCount = s.freeCount) ∧
    (exec (.readf n) s = .next t →
      t.a = s.a ∧ t.dcur = s.dcur ∧ t.dbuf = s.dbuf ∧ t.seeded = s.seeded ∧ t.host = s.host ∧
      t.freeCount = s.freeCount ∧ (s.seeded = true → t.fault = s.fault ∧ t.faultCode = s.faultCode)) ∧
    (exec (.readd n) s = .next t →
      t.a = s.a ∧ t.fcur = s.fcur ∧ t.fbuf = s.fbuf ∧ t.seeded = s.seeded ∧ t.host = s.host ∧
      t.freeCount = s.freeCount ∧ (s.seeded = true → t.fault = s.fault ∧ t.faultCode = s.faultCode)) ∧
    (∀ P : Params, execWith P (.jump n) s = .next t →
      t.a = s.a ∧ t.fbuf = s.fbuf ∧ t.dbuf = s.dbuf ∧ t.seeded = s.seeded ∧ t.out = s.out ∧ t.host = s.host ∧
      t.freeCount = s.freeCount ∧ (s.seeded = true → t.fault = s.fault ∧ t.faultCode = s.faultCode) ∧
      (P.jumpResetsCursors = false → t.fcur = s.fcur ∧ t.dcur = s.dcur)) ∧
    (exec (.jump n) s = .next t →
      t.a = s.a ∧ t.fcur = s.fcur ∧ t.dcur = s.dcur ∧ t.fbuf = s.fbuf ∧ t.dbuf = s.dbuf ∧ t.seeded = s.seeded ∧
      t.out = s.out ∧ t.host = s.host ∧ t.freeCount = s.freeCount ∧
      (s.seeded = true → t.fault = s.fault ∧ t.faultCode = s.faultCode)) ∧
    (exec (.setskip n) s = .next t ∨ exec .selprim s = .next t →
      t.x = s.x ∧ t.fcur = s.fcur ∧ t.dcur = s.dcur ∧ t.fbuf = s.fbuf ∧ t.dbuf = s.dbuf ∧ t.seeded = s.seeded ∧
      t.out = s.out ∧ t.host = s.host ∧ t.freeCount = s.freeCount ∧
      (s.seeded = true → t.fault = s.fault ∧ t.faultCode = s.faultCode))

/-- R168, R169, R171: SETSKIP and JUMP commute; SELPRIM twice is SELPRIM once; SETSKIP after SELPRIM is SETSKIP;
for any parameters (`exec` is the case of `Config.params`). -/
def Obligations.ConfigCommandsCommute : Prop :=
  ∀ (P : Params) (n k : Operand) (s : State), s.seeded = true → isResidue s.x = true →
    (∃ t u t', execWith P (.setskip n) s = .next t ∧ execWith P (.jump k) t = .next u ∧
      execWith P (.jump k) s = .next t' ∧ execWith P (.setskip n) t' = .next u) ∧
    (∃ t, execWith P .selprim s = .next t ∧ execWith P .selprim t = .next t ∧
      execWith P (.setskip n) t = execWith P (.setskip n) s)

/-! ### Ports, flags, faults and reset (spec/10_state.md, spec/20_memory.md, spec/60_exceptions.md, spec/70_reset_and_hazards.md) -/

/-- R40, R49: on an open port, when the presented word decodes to a command, the step is that command's `exec`, from
the state in which the word has been taken from the host and BUSY set. -/
def Obligations.StepRunsDecodedCommand : Prop :=
  ∀ (s : State) (w : CmdWord) (rest : List HostAction) (i : Instr), s.host = .present w :: rest → portOpen s = true →
    decode w = .ok i → step s = exec i { s with host := rest, busy := true }

/-- R183, R186: an accepted word whose opcode is outside `0x01 … 0x06`, or whose reserved field is not zero, raises
IllegalCommand, seeded or not, and nothing else changes. -/
def Obligations.IllegalWordFaults : Prop :=
  ∀ (s : State) (w : CmdWord) (rest : List HostAction), s.host = .present w :: rest → portOpen s = true →
    ((w.extractLsb' 128 8).toNat = 0 ∨ 6 < (w.extractLsb' 128 8).toNat ∨
      ((w.extractLsb' 128 8).toNat ≠ 1 ∧ w.extractLsb' 64 64 ≠ 0) ∨
      ((w.extractLsb' 128 8).toNat = 6 ∧ w.extractLsb' 0 64 ≠ 0)) →
    step s = .next { s with host := rest, fault := true, faultCode := .illegalCommand }

/-- R184: a legal command other than SEED accepted on an unseeded core raises NotSeeded, for every operand, and
nothing else changes. -/
def Obligations.NotSeededFaults : Prop :=
  ∀ (s : State) (w : CmdWord) (rest : List HostAction) (n : Operand) (i : Instr),
    s.host = .present w :: rest → portOpen s = true → decode w = .ok i →
    (i = .readf n ∨ i = .readd n ∨ i = .jump n ∨ i = .setskip n ∨ i = .selprim) → s.seeded = false →
    step s = .next { s with host := rest, fault := true, faultCode := .notSeeded }

/-- R29, R40, R187, R188: a core that is faulted or busy accepts no word; and no action of the host but reset changes
a faulted core. That the turned-away word then leaves the host's list of actions (`host := rest`, `host.tail`), where
hardware would let the host hold it, is no rule's but the model's: DESIGN CHOICE, log 2. -/
def Obligations.FaultedUntilReset : Prop :=
  (∀ (s : State) (w : CmdWord) (rest : List HostAction), s.host = .present w :: rest → s.fault = true ∨ s.busy = true →
    step s = .next { s with host := rest }) ∧
  (∀ s t : State, s.fault = true → step s = .next t → s.host.head? ≠ some .reset →
    t = { s with host := s.host.tail } ∧ statusWord t = statusWord s)

/-- R33, R200: what reset leaves in BUSY, SEEDED, FAULT and FAULT_CODE, at the start and whenever the host asserts it;
what was delivered stays delivered. -/
def Obligations.ResetLeaves : Prop :=
  (State.reset.busy = false ∧ State.reset.seeded = false ∧ State.reset.fault = false ∧ State.reset.faultCode = .none) ∧
  (∀ (s : State) (rest : List HostAction), s.host = .reset :: rest →
    ∃ t, step s = .next t ∧ t.busy = false ∧ t.seeded = false ∧ t.fault = false ∧ t.faultCode = .none ∧
      t.out = s.out ∧ t.host = rest)

/-- R200: reset in the middle of a command abandons it: the control state is IDLE, the flags are clear, what the command
had delivered stays delivered. Where in a command the control machine can be met is the model's: DESIGN CHOICE, log 17. -/
def Obligations.ResetAbandonsCommand : Prop :=
  ∀ m : Micro, (microReset m).ctl = .idle ∧ (microReset m).core.busy = false ∧ (microReset m).core.seeded = false ∧
    (microReset m).core.fault = false ∧ (microReset m).core.faultCode = .none ∧ (microReset m).core.out = m.core.out

/-- R30: the fields of the status word, its reserved bits, and its value at reset. -/
def Obligations.StatusWordFields : Prop :=
  (∀ s : State, (statusWord s).getLsbD 0 = s.busy ∧ (statusWord s).getLsbD 1 = s.seeded ∧
    (statusWord s).getLsbD 2 = s.fault ∧ (statusWord s).extractLsb' 5 3 = 0 ∧
    ((statusWord s).extractLsb' 3 2).toNat =
      match s.faultCode with
      | .none => 0
      | .illegalCommand => 1
      | .notSeeded => 2
      | .mulmodPrecondition => 3) ∧
  statusWord State.reset = 0

/-- The invariant `Inv` holds right after reset (R23, R33). -/
def Obligations.InvAtReset : Prop := Inv State.reset

/-- R23, R29, R81, R185: every step keeps the invariant: no command in progress between steps, FAULT and FAULT_CODE agree,
the multiplier's precondition is never violated, and a seeded core holds two residues; of the core that `step` runs, and
of a core with any parameters. -/
def Obligations.InvKept : Prop :=
  (∀ s t : State, Inv s → step s = .next t → Inv t) ∧
  (∀ (P : Params) (s t : State), Inv s → stepWith P s = .next t → Inv t)

/-- R28: SEEDED is set only by a SEED command and cleared only by reset; for any parameters (`step` is the case of
`Config.params`). -/
def Obligations.SeededOnlyBySeed : Prop :=
  ∀ (P : Params) (s t : State), stepWith P s = .next t → t.seeded ≠ s.seeded →
    (t.seeded = true ∧ ∃ w rest k p, s.host = .present w :: rest ∧ decode w = .ok (.seed k p)) ∨
    (t.seeded = false ∧ ∃ rest, s.host = .reset :: rest)

/-- R21, R22: between resets, on a core that meets the invariant, `X` is changed only by SEED, JUMP, READF and READD, and
`A` only by SEED, SETSKIP and SELPRIM; for any parameters (`step` is the case of `Config.params`). -/
def Obligations.WhoWritesXAndA : Prop :=
  ∀ (P : Params) (s t : State), Inv s → stepWith P s = .next t → s.host.head? ≠ some .reset →
    (t.x ≠ s.x → ∃ w rest k p n, s.host = .present w :: rest ∧
      (decode w = .ok (.seed k p) ∨ decode w = .ok (.jump n) ∨ decode w = .ok (.readf n) ∨ decode w = .ok (.readd n))) ∧
    (t.a ≠ s.a → ∃ w rest k p n, s.host = .present w :: rest ∧
      (decode w = .ok (.seed k p) ∨ decode w = .ok (.setskip n) ∨ decode w = .ok .selprim))

/-- R22: between resets, on a core that meets the invariant, every value written to `A` is a power of `A_BASE` with a
64-bit exponent, or `A_BASE^2048 + 13 mod M`; for any parameters (`step` is the case of `Config.params`). -/
def Obligations.MultiplierValues : Prop :=
  ∀ (P : Params) (s t : State), Inv s → stepWith P s = .next t → s.host.head? ≠ some .reset → t.a ≠ s.a →
    (∃ n : Operand, t.a = powNat P.base n.toNat) ∨
    t.a = residueOf (P.base.toNat ^ 2048 + 13)

/-- R180, R211: every command completes with a next state and BUSY cleared, and every step answers a next state; on a
seeded core that meets the invariant no command raises a fault, whatever its operands; and so for any parameters. -/
def Obligations.CommandsComplete : Prop :=
  (∀ (i : Instr) (s : State), ∃ t, exec i s = .next t ∧ t.busy = false) ∧
  (∀ s : State, ∃ t, step s = .next t) ∧
  (∀ (i : Instr) (s t : State), Inv s → s.seeded = true → exec i s = .next t →
    t.fault = s.fault ∧ t.faultCode = s.faultCode) ∧
  (∀ (P : Params) (i : Instr) (s : State), ∃ t, execWith P i s = .next t ∧ t.busy = false ∧
    (Inv s → s.seeded = true → t.fault = s.fault ∧ t.faultCode = s.faultCode)) ∧
  (∀ (P : Params) (s : State), ∃ t, stepWith P s = .next t)

/-- R33, R146, R149, U3: two cores that differ only in what no command can read (delivered buffer entries; on an
unseeded core `X`, `A`, cursors and buffers) deliver the same elements at every step and stay so related; of the core that
`step` runs, and of a core with any parameters. -/
def Obligations.OutputIsDetermined : Prop :=
  (∀ s t : State, Same s t →
    ∃ s' t', step s = .next s' ∧ step t = .next t' ∧ Same s' t' ∧ newElems s s' = newElems t t' ∧
      statusWord s' = statusWord t') ∧
  (∀ (P : Params) (s t : State), Same s t →
    ∃ s' t', stepWith P s = .next s' ∧ stepWith P t = .next t' ∧ Same s' t' ∧ newElems s s' = newElems t t' ∧
      statusWord s' = statusWord t')

/-- R27, R87, R104, R150: the control machine, started from IDLE on an accepted word, ends in IDLE (or, after a fault, in
FAULTED) with exactly the state the one step gives, and BUSY is 1 all the way there; of the core that `step` runs, and of a
core with any parameters. How much one transition of the control machine does is the model's: DESIGN CHOICE, log 17. -/
def Obligations.ControlRefinesStep : Prop :=
  (∀ (m : Micro) (w : CmdWord) (rest : List HostAction), m.ctl = .idle → portOpen m.core = true →
    m.core.host = .present w :: rest →
    ∃ (k : Nat) (t : State), step m.core = .next t ∧ (microRun (k + 1) m).core = t ∧
      (microRun (k + 1) m).ctl = (if t.fault then .faulted else .idle) ∧
      ∀ j, 1 ≤ j → j ≤ k → (microRun j m).core.busy = true ∧ (microRun j m).ctl ≠ .idle ∧ (microRun j m).ctl ≠ .faulted) ∧
  (∀ (P : Params) (m : Micro) (w : CmdWord) (rest : List HostAction), m.ctl = .idle → portOpen m.core = true →
    m.core.host = .present w :: rest →
    ∃ (k : Nat) (t : State), stepWith P m.core = .next t ∧ (microRunWith P (k + 1) m).core = t ∧
      (microRunWith P (k + 1) m).ctl = (if t.fault then .faulted else .idle) ∧
      ∀ j, 1 ≤ j → j ≤ k → (microRunWith P j m).core.busy = true ∧ (microRunWith P j m).ctl ≠ .idle ∧
        (microRunWith P j m).ctl ≠ .faulted)
end

