-- ==== Sys2Proof/Laws/Modexp.lean ====
section
/-! SUPPORT. What the multiplier contract, the exponentiation engine and the computation of SEED can answer, in terms of residues of natural numbers. -/

namespace Sys2Proof.Machine

/-- The literal of Config.lean is the modulus of R2. -/
theorem modulus_eq : modulus = 2 ^ 576 - 2 ^ 240 + 1 := by decide +kernel

theorem modulus_pos : 0 < modulus := by decide +kernel

theorem one_lt_modulus : 1 < modulus := by decide +kernel

/-- A number below the modulus fits the register (R16). -/
theorem toNat_ofNat_residue {k : Nat} (h : k < modulus) : (BitVec.ofNat 576 k).toNat = k := by
  rw [BitVec.toNat_ofNat]
  exact Nat.mod_eq_of_lt (h.trans_le (by decide +kernel))

theorem residueOf_toNat (k : Nat) : (residueOf k).toNat = k % modulus :=
  toNat_ofNat_residue (Nat.mod_lt k modulus_pos)

theorem isResidue_iff (v : Word576) : isResidue v = true ↔ v.toNat < modulus := by
  simp [isResidue]

@[simp] theorem isResidue_residueOf (k : Nat) : isResidue (residueOf k) = true := by
  rw [isResidue_iff, residueOf_toNat]
  exact Nat.mod_lt k modulus_pos

theorem residueOf_congr {k l : Nat} (h : k % modulus = l % modulus) : residueOf k = residueOf l := by
  simp [residueOf, h]

theorem residueOf_inj {k l : Nat} (h : residueOf k = residueOf l) : k % modulus = l % modulus := by
  rw [← residueOf_toNat, ← residueOf_toNat, h]

/-- A residue is the residue of its own number. -/
theorem residueOf_self {v : Word576} (h : isResidue v = true) : residueOf v.toNat = v := by
  apply BitVec.eq_of_toNat_eq
  rw [residueOf_toNat, Nat.mod_eq_of_lt ((isResidue_iff v).mp h)]

theorem residueOne_eq : residueOne = residueOf 1 := by
  apply BitVec.eq_of_toNat_eq
  rw [residueOf_toNat, Nat.mod_eq_of_lt one_lt_modulus]
  decide +kernel

@[simp] theorem isResidue_one : isResidue residueOne = true := by
  rw [residueOne_eq]
  exact isResidue_residueOf 1

/-- `A_BASE` is a residue, whatever the parameters (R11). -/
@[simp] theorem isResidue_base (P : Params) : isResidue P.base = true := by
  have h := P.aBase.isLt
  have h' : P.base.toNat = P.aBase.val := toNat_ofNat_residue h
  rw [isResidue_iff, h']
  exact h

/-- The contract of the multiplier in residues of numbers (R80). -/
theorem mulMod_residueOf (k l : Nat) : mulMod (residueOf k) (residueOf l) = some (residueOf (k * l)) := by
  simp only [mulMod, isResidue_residueOf, Bool.and_self, if_true, mulValue, Option.some.injEq]
  apply residueOf_congr
  rw [residueOf_toNat, residueOf_toNat, ← Nat.mul_mod]

theorem mulMod_eq_some {a b : Word576} (ha : isResidue a = true) (hb : isResidue b = true) :
    mulMod a b = some (residueOf (a.toNat * b.toNat)) := by
  simp [mulMod, ha, hb, mulValue]

theorem mulMod_eq_none {a b : Word576} (h : ¬(isResidue a = true ∧ isResidue b = true)) : mulMod a b = none := by
  simp only [mulMod, Bool.and_eq_true, if_neg h]

/-- All a request can do: be refused for an operand that is no residue, or answer the product (R80, R81). -/
theorem mulMod_cases {a b r : Word576} (h : mulMod a b = some r) :
    isResidue a = true ∧ isResidue b = true ∧ r = residueOf (a.toNat * b.toNat) := by
  by_cases hab : isResidue a = true ∧ isResidue b = true
  · rw [mulMod_eq_some hab.1 hab.2] at h
    exact ⟨hab.1, hab.2, (Option.some.inj h).symm⟩
  · rw [mulMod_eq_none hab] at h
    cases h

/-- One bit of the scan: the value of the remaining bits of the exponent. -/
theorem exponent_split (n : Operand) (i : Nat) :
    n.toNat % 2 ^ (i + 1) = 2 ^ i * (exponentBit n i).toNat + n.toNat % 2 ^ i := by
  rw [Nat.mod_pow_succ, Nat.add_comm]
  congr 2
  rw [exponentBit, BitVec.getLsbD, Nat.testBit_eq_decide_div_mod_eq]
  rcases Nat.mod_two_eq_zero_or_one (n.toNat / 2 ^ i) with h | h <;> simp [h]

/-- What the loop computes from any accumulator (R85). -/
theorem powLoop_residueOf (k l : Nat) (n : Operand) (i : Nat) :
    powLoop (residueOf k) n i (residueOf l) = some (residueOf (l ^ 2 ^ i * k ^ (n.toNat % 2 ^ i))) := by
  induction i generalizing l with
  | zero => simp [powLoop, Nat.mod_one]
  | succ i ih =>
    rw [powLoop, mulMod_residueOf, Option.bind_some, exponent_split]
    cases hb : exponentBit n i with
    | false =>
      simp only [Bool.false_eq_true, if_false, Option.bind_some, ih, Bool.toNat_false, Nat.mul_zero, Nat.zero_add]
      rw [← pow_two, ← pow_mul, ← Nat.pow_succ']
    | true =>
      simp only [if_true, mulMod_residueOf, Option.bind_some, ih, Bool.toNat_true, Nat.mul_one]
      congr 2
      rw [Nat.pow_succ']
      ring

/-- `h = msb(n)` for `n > 0`: `n` is `2^h` plus the bits below it. -/
theorem msb_split {n : Nat} (h : n ≠ 0) : 2 ^ msb n + n % 2 ^ msb n = n := by
  have h1 : n / 2 ^ msb n = 1 := by
    have hlo := Nat.log2_self_le h
    have hhi : n < 2 ^ (Nat.log2 n + 1) := Nat.lt_log2_self
    rw [Nat.pow_succ] at hhi
    exact Nat.div_eq_of_lt_le (by simpa [msb] using hlo) (by simpa [msb, Nat.mul_comm] using hhi)
  have h2 := Nat.div_add_mod n (2 ^ msb n)
  rw [h1, Nat.mul_one] at h2
  exact h2

/-- Every residue is the residue of some number. -/
theorem exists_residueOf {v : Word576} (h : isResidue v = true) : ∃ k, v = residueOf k :=
  ⟨v.toNat, (residueOf_self h).symm⟩

/-- All POWMOD answers for a base that is a residue (R85, R86). -/
theorem powMod_residueOf (k : Nat) (n : Operand) : powMod (residueOf k) n = some (residueOf (k ^ n.toNat)) := by
  rw [powMod]
  split_ifs with h
  · subst h
    rw [residueOne_eq]
    simp
  · have hn : n.toNat ≠ 0 := fun h0 => h (BitVec.eq_of_toNat_eq (by simpa using h0))
    rw [powLoop_residueOf, ← pow_add, operandValue, msb_split hn]

theorem powNat_residueOf (k n : Nat) : Safety.powNat (residueOf k) n = residueOf (k ^ n) := by
  apply residueOf_congr
  rw [residueOf_toNat, ← Nat.pow_mod]

theorem stateAfter_residueOf (k l n : Nat) : Safety.stateAfter (residueOf k) (residueOf l) n = residueOf (k * l ^ n) := by
  apply residueOf_congr
  rw [residueOf_toNat, residueOf_toNat]
  exact (Nat.mod_modEq k modulus).mul ((Nat.mod_modEq l modulus).pow _)

/-- A power of `A_BASE` (R11, R85). -/
theorem powMod_base (P : Params) (n : Operand) : powMod P.base n = some (Safety.powNat P.base n.toNat) := by
  obtain ⟨k, hk⟩ := exists_residueOf (isResidue_base P)
  rw [hk, powMod_residueOf, powNat_residueOf]

/-- A power of a power of `A_BASE` (R88 (d)). -/
theorem powMod_powNat (P : Params) (m : Nat) (n : Operand) :
    powMod (Safety.powNat P.base m) n = some (Safety.powNat P.base (m * n.toNat)) := by
  rw [Safety.powNat, powMod_residueOf, ← pow_mul, Safety.powNat]

/-- The registers SEED computes, in closed form (R161, R162). -/
theorem seedRegs_eq (P : Params) (k p : Operand) :
    seedRegs P k p = some (Safety.powNat P.base p.toNat, Safety.powNat P.base (p.toNat * 2 ^ 96 * k.toNat)) := by
  have e : seedExponent.toNat = 2 ^ 48 := by decide +kernel
  have one : ∀ m, mulMod residueOne (Safety.powNat P.base m) = some (Safety.powNat P.base m) := fun m => by
    rw [residueOne_eq, Safety.powNat, mulMod_residueOf, Nat.one_mul]
  rw [seedRegs, powMod_base]
  rw [Option.bind_some, powMod_powNat, Option.bind_some, powMod_powNat, Option.bind_some, powMod_powNat,
    Option.bind_some, one, Option.bind_some, e, Nat.mul_assoc p.toNat, ← pow_add]

end Sys2Proof.Machine
end

