-- ==== Sys2Proof/Laws/State.lean ====
section
/-! SUPPORT. One lemma per field per named update of the state, each true by unfolding. -/

namespace Sys2Proof.Machine

@[simp] theorem accept_x (s : State) : (accept s).x = s.x := rfl
@[simp] theorem accept_a (s : State) : (accept s).a = s.a := rfl
@[simp] theorem accept_fcur (s : State) : (accept s).fcur = s.fcur := rfl
@[simp] theorem accept_dcur (s : State) : (accept s).dcur = s.dcur := rfl
@[simp] theorem accept_fbuf (s : State) : (accept s).fbuf = s.fbuf := rfl
@[simp] theorem accept_dbuf (s : State) : (accept s).dbuf = s.dbuf := rfl
@[simp] theorem accept_seeded (s : State) : (accept s).seeded = s.seeded := rfl
@[simp] theorem accept_fault (s : State) : (accept s).fault = s.fault := rfl
@[simp] theorem accept_faultCode (s : State) : (accept s).faultCode = s.faultCode := rfl
@[simp] theorem accept_busy (s : State) : (accept s).busy = true := rfl
@[simp] theorem accept_host (s : State) : (accept s).host = s.host := rfl
@[simp] theorem accept_out (s : State) : (accept s).out = s.out := rfl
@[simp] theorem accept_freeCount (s : State) : (accept s).freeCount = s.freeCount := rfl

@[simp] theorem complete_x (s : State) : (complete s).x = s.x := rfl
@[simp] theorem complete_a (s : State) : (complete s).a = s.a := rfl
@[simp] theorem complete_fcur (s : State) : (complete s).fcur = s.fcur := rfl
@[simp] theorem complete_dcur (s : State) : (complete s).dcur = s.dcur := rfl
@[simp] theorem complete_fbuf (s : State) : (complete s).fbuf = s.fbuf := rfl
@[simp] theorem complete_dbuf (s : State) : (complete s).dbuf = s.dbuf := rfl
@[simp] theorem complete_seeded (s : State) : (complete s).seeded = s.seeded := rfl
@[simp] theorem complete_fault (s : State) : (complete s).fault = s.fault := rfl
@[simp] theorem complete_faultCode (s : State) : (complete s).faultCode = s.faultCode := rfl
@[simp] theorem complete_busy (s : State) : (complete s).busy = false := rfl
@[simp] theorem complete_host (s : State) : (complete s).host = s.host := rfl
@[simp] theorem complete_out (s : State) : (complete s).out = s.out := rfl
@[simp] theorem complete_freeCount (s : State) : (complete s).freeCount = s.freeCount := rfl

@[simp] theorem raiseFault_x (c : FaultCode) (s : State) : (raiseFault c s).x = s.x := rfl
@[simp] theorem raiseFault_a (c : FaultCode) (s : State) : (raiseFault c s).a = s.a := rfl
@[simp] theorem raiseFault_fcur (c : FaultCode) (s : State) : (raiseFault c s).fcur = s.fcur := rfl
@[simp] theorem raiseFault_dcur (c : FaultCode) (s : State) : (raiseFault c s).dcur = s.dcur := rfl
@[simp] theorem raiseFault_fbuf (c : FaultCode) (s : State) : (raiseFault c s).fbuf = s.fbuf := rfl
@[simp] theorem raiseFault_dbuf (c : FaultCode) (s : State) : (raiseFault c s).dbuf = s.dbuf := rfl
@[simp] theorem raiseFault_seeded (c : FaultCode) (s : State) : (raiseFault c s).seeded = s.seeded := rfl
@[simp] theorem raiseFault_fault (c : FaultCode) (s : State) : (raiseFault c s).fault = true := rfl
@[simp] theorem raiseFault_faultCode (c : FaultCode) (s : State) : (raiseFault c s).faultCode = c := rfl
@[simp] theorem raiseFault_busy (c : FaultCode) (s : State) : (raiseFault c s).busy = false := rfl
@[simp] theorem raiseFault_host (c : FaultCode) (s : State) : (raiseFault c s).host = s.host := rfl
@[simp] theorem raiseFault_out (c : FaultCode) (s : State) : (raiseFault c s).out = s.out := rfl
@[simp] theorem raiseFault_freeCount (c : FaultCode) (s : State) : (raiseFault c s).freeCount = s.freeCount := rfl

@[simp] theorem scramble_x (s : State) : (scramble s).x = Config.freeX s.freeCount := rfl
@[simp] theorem scramble_a (s : State) : (scramble s).a = Config.freeA s.freeCount := rfl
@[simp] theorem scramble_fcur (s : State) : (scramble s).fcur = Config.freeFcur s.freeCount := rfl
@[simp] theorem scramble_dcur (s : State) : (scramble s).dcur = Config.freeDcur s.freeCount := rfl
@[simp] theorem scramble_fbuf (s : State) : (scramble s).fbuf = Config.freeFbuf s.freeCount := rfl
@[simp] theorem scramble_dbuf (s : State) : (scramble s).dbuf = Config.freeDbuf s.freeCount := rfl
@[simp] theorem scramble_seeded (s : State) : (scramble s).seeded = s.seeded := rfl
@[simp] theorem scramble_fault (s : State) : (scramble s).fault = s.fault := rfl
@[simp] theorem scramble_faultCode (s : State) : (scramble s).faultCode = s.faultCode := rfl
@[simp] theorem scramble_busy (s : State) : (scramble s).busy = s.busy := rfl
@[simp] theorem scramble_host (s : State) : (scramble s).host = s.host := rfl
@[simp] theorem scramble_out (s : State) : (scramble s).out = s.out := rfl
@[simp] theorem scramble_freeCount (s : State) : (scramble s).freeCount = s.freeCount + 1 := rfl

@[simp] theorem raiseMulmod_x (s : State) : (raiseMulmod s).x = Config.freeX s.freeCount := rfl
@[simp] theorem raiseMulmod_a (s : State) : (raiseMulmod s).a = Config.freeA s.freeCount := rfl
@[simp] theorem raiseMulmod_fcur (s : State) : (raiseMulmod s).fcur = Config.freeFcur s.freeCount := rfl
@[simp] theorem raiseMulmod_dcur (s : State) : (raiseMulmod s).dcur = Config.freeDcur s.freeCount := rfl
@[simp] theorem raiseMulmod_fbuf (s : State) : (raiseMulmod s).fbuf = Config.freeFbuf s.freeCount := rfl
@[simp] theorem raiseMulmod_dbuf (s : State) : (raiseMulmod s).dbuf = Config.freeDbuf s.freeCount := rfl
@[simp] theorem raiseMulmod_seeded (s : State) : (raiseMulmod s).seeded = s.seeded := rfl
@[simp] theorem raiseMulmod_fault (s : State) : (raiseMulmod s).fault = true := rfl
@[simp] theorem raiseMulmod_faultCode (s : State) : (raiseMulmod s).faultCode = .mulmodPrecondition := rfl
@[simp] theorem raiseMulmod_busy (s : State) : (raiseMulmod s).busy = false := rfl
@[simp] theorem raiseMulmod_host (s : State) : (raiseMulmod s).host = s.host := rfl
@[simp] theorem raiseMulmod_out (s : State) : (raiseMulmod s).out = s.out := rfl
@[simp] theorem raiseMulmod_freeCount (s : State) : (raiseMulmod s).freeCount = s.freeCount + 1 := rfl

@[simp] theorem resetCore_x (s : State) : (resetCore s).x = 0 := rfl
@[simp] theorem resetCore_a (s : State) : (resetCore s).a = 0 := rfl
@[simp] theorem resetCore_fcur (s : State) : (resetCore s).fcur = 24 := rfl
@[simp] theorem resetCore_dcur (s : State) : (resetCore s).dcur = 11 := rfl
@[simp] theorem resetCore_fbuf (s : State) : (resetCore s).fbuf = Vector.replicate batchF 0 := rfl
@[simp] theorem resetCore_dbuf (s : State) : (resetCore s).dbuf = Vector.replicate batchD 0 := rfl
@[simp] theorem resetCore_seeded (s : State) : (resetCore s).seeded = false := rfl
@[simp] theorem resetCore_fault (s : State) : (resetCore s).fault = false := rfl
@[simp] theorem resetCore_faultCode (s : State) : (resetCore s).faultCode = .none := rfl
@[simp] theorem resetCore_busy (s : State) : (resetCore s).busy = false := rfl
@[simp] theorem resetCore_host (s : State) : (resetCore s).host = s.host := rfl
@[simp] theorem resetCore_out (s : State) : (resetCore s).out = s.out := rfl
@[simp] theorem resetCore_freeCount (s : State) : (resetCore s).freeCount = s.freeCount := rfl

@[simp] theorem outWrite_x (i : Nat) (v : OutElem) (s : State) : (outWrite i v s).x = s.x := rfl
@[simp] theorem outWrite_a (i : Nat) (v : OutElem) (s : State) : (outWrite i v s).a = s.a := rfl
@[simp] theorem outWrite_fcur (i : Nat) (v : OutElem) (s : State) : (outWrite i v s).fcur = s.fcur := rfl
@[simp] theorem outWrite_dcur (i : Nat) (v : OutElem) (s : State) : (outWrite i v s).dcur = s.dcur := rfl
@[simp] theorem outWrite_fbuf (i : Nat) (v : OutElem) (s : State) : (outWrite i v s).fbuf = s.fbuf := rfl
@[simp] theorem outWrite_dbuf (i : Nat) (v : OutElem) (s : State) : (outWrite i v s).dbuf = s.dbuf := rfl
@[simp] theorem outWrite_seeded (i : Nat) (v : OutElem) (s : State) : (outWrite i v s).seeded = s.seeded := rfl
@[simp] theorem outWrite_fault (i : Nat) (v : OutElem) (s : State) : (outWrite i v s).fault = s.fault := rfl
@[simp] theorem outWrite_faultCode (i : Nat) (v : OutElem) (s : State) : (outWrite i v s).faultCode = s.faultCode := rfl
@[simp] theorem outWrite_busy (i : Nat) (v : OutElem) (s : State) : (outWrite i v s).busy = s.busy := rfl
@[simp] theorem outWrite_host (i : Nat) (v : OutElem) (s : State) : (outWrite i v s).host = s.host := rfl
@[simp] theorem outWrite_out (i : Nat) (v : OutElem) (s : State) : (outWrite i v s).out = s.out ++ [⟨i, v⟩] := rfl
@[simp] theorem outWrite_freeCount (i : Nat) (v : OutElem) (s : State) : (outWrite i v s).freeCount = s.freeCount := rfl

@[simp] theorem deliver_x (vs : List OutElem) (s : State) : (deliver vs s).x = s.x := rfl
@[simp] theorem deliver_a (vs : List OutElem) (s : State) : (deliver vs s).a = s.a := rfl
@[simp] theorem deliver_fcur (vs : List OutElem) (s : State) : (deliver vs s).fcur = s.fcur := rfl
@[simp] theorem deliver_dcur (vs : List OutElem) (s : State) : (deliver vs s).dcur = s.dcur := rfl
@[simp] theorem deliver_fbuf (vs : List OutElem) (s : State) : (deliver vs s).fbuf = s.fbuf := rfl
@[simp] theorem deliver_dbuf (vs : List OutElem) (s : State) : (deliver vs s).dbuf = s.dbuf := rfl
@[simp] theorem deliver_seeded (vs : List OutElem) (s : State) : (deliver vs s).seeded = s.seeded := rfl
@[simp] theorem deliver_fault (vs : List OutElem) (s : State) : (deliver vs s).fault = s.fault := rfl
@[simp] theorem deliver_faultCode (vs : List OutElem) (s : State) : (deliver vs s).faultCode = s.faultCode := rfl
@[simp] theorem deliver_busy (vs : List OutElem) (s : State) : (deliver vs s).busy = s.busy := rfl
@[simp] theorem deliver_host (vs : List OutElem) (s : State) : (deliver vs s).host = s.host := rfl
@[simp] theorem deliver_out (vs : List OutElem) (s : State) : (deliver vs s).out = s.out ++ outWritesFrom 0 vs := rfl
@[simp] theorem deliver_freeCount (vs : List OutElem) (s : State) : (deliver vs s).freeCount = s.freeCount := rfl

@[simp] theorem emptyBuffers_x (s : State) : (emptyBuffers s).x = s.x := rfl
@[simp] theorem emptyBuffers_a (s : State) : (emptyBuffers s).a = s.a := rfl
@[simp] theorem emptyBuffers_fcur (s : State) : (emptyBuffers s).fcur = 24 := rfl
@[simp] theorem emptyBuffers_dcur (s : State) : (emptyBuffers s).dcur = 11 := rfl
@[simp] theorem emptyBuffers_fbuf (s : State) : (emptyBuffers s).fbuf = s.fbuf := rfl
@[simp] theorem emptyBuffers_dbuf (s : State) : (emptyBuffers s).dbuf = s.dbuf := rfl
@[simp] theorem emptyBuffers_seeded (s : State) : (emptyBuffers s).seeded = s.seeded := rfl
@[simp] theorem emptyBuffers_fault (s : State) : (emptyBuffers s).fault = s.fault := rfl
@[simp] theorem emptyBuffers_faultCode (s : State) : (emptyBuffers s).faultCode = s.faultCode := rfl
@[simp] theorem emptyBuffers_busy (s : State) : (emptyBuffers s).busy = s.busy := rfl
@[simp] theorem emptyBuffers_host (s : State) : (emptyBuffers s).host = s.host := rfl
@[simp] theorem emptyBuffers_out (s : State) : (emptyBuffers s).out = s.out := rfl
@[simp] theorem emptyBuffers_freeCount (s : State) : (emptyBuffers s).freeCount = s.freeCount := rfl

@[simp] theorem queueWord_x (w : CmdWord) (s : State) : (queueWord w s).x = s.x := rfl
@[simp] theorem queueWord_a (w : CmdWord) (s : State) : (queueWord w s).a = s.a := rfl
@[simp] theorem queueWord_fcur (w : CmdWord) (s : State) : (queueWord w s).fcur = s.fcur := rfl
@[simp] theorem queueWord_dcur (w : CmdWord) (s : State) : (queueWord w s).dcur = s.dcur := rfl
@[simp] theorem queueWord_fbuf (w : CmdWord) (s : State) : (queueWord w s).fbuf = s.fbuf := rfl
@[simp] theorem queueWord_dbuf (w : CmdWord) (s : State) : (queueWord w s).dbuf = s.dbuf := rfl
@[simp] theorem queueWord_seeded (w : CmdWord) (s : State) : (queueWord w s).seeded = s.seeded := rfl
@[simp] theorem queueWord_fault (w : CmdWord) (s : State) : (queueWord w s).fault = s.fault := rfl
@[simp] theorem queueWord_faultCode (w : CmdWord) (s : State) : (queueWord w s).faultCode = s.faultCode := rfl
@[simp] theorem queueWord_busy (w : CmdWord) (s : State) : (queueWord w s).busy = s.busy := rfl
@[simp] theorem queueWord_host (w : CmdWord) (s : State) : (queueWord w s).host = .present w :: s.host := rfl
@[simp] theorem queueWord_out (w : CmdWord) (s : State) : (queueWord w s).out = s.out := rfl
@[simp] theorem queueWord_freeCount (w : CmdWord) (s : State) : (queueWord w s).freeCount = s.freeCount := rfl

@[simp] theorem storeF_x (s : State) (r : ReadRun 32 batchF) : (storeF s r).x = r.x := rfl
@[simp] theorem storeF_a (s : State) (r : ReadRun 32 batchF) : (storeF s r).a = s.a := rfl
@[simp] theorem storeF_fcur (s : State) (r : ReadRun 32 batchF) : (storeF s r).fcur = r.cur := rfl
@[simp] theorem storeF_dcur (s : State) (r : ReadRun 32 batchF) : (storeF s r).dcur = s.dcur := rfl
@[simp] theorem storeF_fbuf (s : State) (r : ReadRun 32 batchF) : (storeF s r).fbuf = r.buf := rfl
@[simp] theorem storeF_dbuf (s : State) (r : ReadRun 32 batchF) : (storeF s r).dbuf = s.dbuf := rfl
@[simp] theorem storeF_seeded (s : State) (r : ReadRun 32 batchF) : (storeF s r).seeded = s.seeded := rfl
@[simp] theorem storeF_fault (s : State) (r : ReadRun 32 batchF) : (storeF s r).fault = s.fault := rfl
@[simp] theorem storeF_faultCode (s : State) (r : ReadRun 32 batchF) : (storeF s r).faultCode = s.faultCode := rfl
@[simp] theorem storeF_busy (s : State) (r : ReadRun 32 batchF) : (storeF s r).busy = s.busy := rfl
@[simp] theorem storeF_host (s : State) (r : ReadRun 32 batchF) : (storeF s r).host = s.host := rfl
@[simp] theorem storeF_out (s : State) (r : ReadRun 32 batchF) : (storeF s r).out = s.out ++ outWritesFrom 0 (r.out.map .single) := rfl
@[simp] theorem storeF_freeCount (s : State) (r : ReadRun 32 batchF) : (storeF s r).freeCount = s.freeCount := rfl

@[simp] theorem storeD_x (s : State) (r : ReadRun 64 batchD) : (storeD s r).x = r.x := rfl
@[simp] theorem storeD_a (s : State) (r : ReadRun 64 batchD) : (storeD s r).a = s.a := rfl
@[simp] theorem storeD_fcur (s : State) (r : ReadRun 64 batchD) : (storeD s r).fcur = s.fcur := rfl
@[simp] theorem storeD_dcur (s : State) (r : ReadRun 64 batchD) : (storeD s r).dcur = r.cur := rfl
@[simp] theorem storeD_fbuf (s : State) (r : ReadRun 64 batchD) : (storeD s r).fbuf = s.fbuf := rfl
@[simp] theorem storeD_dbuf (s : State) (r : ReadRun 64 batchD) : (storeD s r).dbuf = r.buf := rfl
@[simp] theorem storeD_seeded (s : State) (r : ReadRun 64 batchD) : (storeD s r).seeded = s.seeded := rfl
@[simp] theorem storeD_fault (s : State) (r : ReadRun 64 batchD) : (storeD s r).fault = s.fault := rfl
@[simp] theorem storeD_faultCode (s : State) (r : ReadRun 64 batchD) : (storeD s r).faultCode = s.faultCode := rfl
@[simp] theorem storeD_busy (s : State) (r : ReadRun 64 batchD) : (storeD s r).busy = s.busy := rfl
@[simp] theorem storeD_host (s : State) (r : ReadRun 64 batchD) : (storeD s r).host = s.host := rfl
@[simp] theorem storeD_out (s : State) (r : ReadRun 64 batchD) : (storeD s r).out = s.out ++ outWritesFrom 0 (r.out.map .double) := rfl
@[simp] theorem storeD_freeCount (s : State) (r : ReadRun 64 batchD) : (storeD s r).freeCount = s.freeCount := rfl

end Sys2Proof.Machine
end

