-- ==== Sys2Proof/Laws/Reader.lean ====
section
/-! SUPPORT. What each phase of a READ, and a whole READ, can answer. -/

namespace Sys2Proof.Machine

open Sys2Proof.Safety

variable {w B : Nat}

theorem stateAfter_isResidue (x a : Word576) (k : Nat) : isResidue (stateAfter x a k) = true :=
  isResidue_residueOf _

theorem stateAfter_zero {x a : Word576} (h : isResidue x = true) : stateAfter x a 0 = x := by
  rw [stateAfter, pow_zero, Nat.mul_one, residueOf_self h]

/-- Draws add up (R102). -/
theorem stateAfter_add (x a : Word576) (j k : Nat) : stateAfter (stateAfter x a j) a k = stateAfter x a (j + k) := by
  apply residueOf_congr
  rw [stateAfter, residueOf_toNat, pow_add, ← Nat.mul_assoc, Nat.mod_mul_mod]

/-- One ADVANCE on residues (R100). -/
theorem advance_eq {x a : Word576} (hx : isResidue x = true) (ha : isResidue a = true) :
    advance x a = some (stateAfter x a 1) := by
  rw [advance, mulMod_eq_some hx ha, stateAfter, pow_one]

/-- All an ADVANCE can do (R81, R100). -/
theorem advance_cases {x a x' : Word576} (h : advance x a = some x') :
    isResidue x = true ∧ isResidue a = true ∧ x' = stateAfter x a 1 := by
  obtain ⟨hx, ha, rfl⟩ := mulMod_cases h
  exact ⟨hx, ha, by rw [stateAfter, pow_one]⟩

/-- The elements of `q` whole batches made from `x` (R143). -/
def batches (extract : Word576 → Vector (BitVec w) B) (x a : Word576) (q : Nat) : List (BitVec w) :=
  (List.range q).flatMap fun i => (extract (stateAfter x a (1 + i))).toList

theorem batches_succ (extract : Word576 → Vector (BitVec w) B) (x a : Word576) (q : Nat) :
    batches extract x a (q + 1) = (extract (stateAfter x a 1)).toList ++ batches extract (stateAfter x a 1) a q := by
  rw [batches, List.range_succ_eq_map, List.flatMap_cons, List.flatMap_map, batches]
  congr 1
  apply List.flatMap_congr
  intro i _
  rw [stateAfter_add, Nat.succ_eq_add_one, Nat.add_comm i 1]

/-- The bulk phase on residues: `q` draws, `q` batches, buffer and cursor untouched (R143). -/
theorem bulkPhase_eq (extract : Word576 → Vector (BitVec w) B) {a : Word576} (ha : isResidue a = true) (q : Nat)
    (r : ReadRun w B) (hx : isResidue r.x = true) :
    bulkPhase a extract q r = .ok { r with x := stateAfter r.x a q, out := r.out ++ batches extract r.x a q } := by
  induction q generalizing r with
  | zero => simp [bulkPhase, batches, stateAfter_zero hx]
  | succ q ih =>
    simp only [bulkPhase, advance_eq hx ha]
    rw [ih _ (stateAfter_isResidue _ _ _)]
    simp [stateAfter_add, batches_succ, List.append_assoc, Nat.add_comm]

/-- A READ can be refused a request only at its first ADVANCE, and only for an operand that is no residue; then
it has done its drain phase and nothing else (R185, R187). -/
theorem bulkPhase_error {extract : Word576 → Vector (BitVec w) B} {a : Word576} {q : Nat} {r e : ReadRun w B}
    (h : bulkPhase a extract q r = .error e) : e = r ∧ 0 < q ∧ ¬(isResidue r.x = true ∧ isResidue a = true) := by
  by_cases hr : isResidue r.x = true ∧ isResidue a = true
  · rw [bulkPhase_eq extract hr.2 q r hr.1] at h
    cases h
  · cases q with
    | zero => cases h
    | succ q =>
      simp only [bulkPhase, advance, mulMod_eq_none hr] at h
      exact ⟨(Except.error.inj h).symm, Nat.succ_pos q, hr⟩

/-- The run a READ of `n` elements ends in, on residues (R143, R145). -/
def readEnd (extract : Word576 → Vector (BitVec w) B) (a : Word576) (n : Nat) (r : ReadRun w B) : ReadRun w B :=
  let rem := n - drainCount r.cur n
  let d := drainPhase n r
  let x' := stateAfter r.x a (rem / B)
  if rem % B = 0 then { d with x := x', out := d.out ++ batches extract r.x a (rem / B) }
  else
    { x := stateAfter r.x a (rem / B + 1), cur := Fin.ofNat (B + 1) (rem % B), buf := extract (stateAfter r.x a (rem / B + 1)),
      out := d.out ++ batches extract r.x a (rem / B) ++ (extract (stateAfter r.x a (rem / B + 1))).toList.take (rem % B) }

/-- A READ on residues answers `readEnd` (R143). -/
theorem readRun_eq (extract : Word576 → Vector (BitVec w) B) {a : Word576} (ha : isResidue a = true) (n : Nat)
    (r : ReadRun w B) (hx : isResidue r.x = true) : readRun a extract n r = .ok (readEnd extract a n r) := by
  simp only [readRun, readEnd]
  rw [bulkPhase_eq extract ha _ _ (by exact hx)]
  by_cases h0 : (n - drainCount r.cur n) % B = 0
  · simp only [tailPhase, h0, if_true, drainPhase]
  · have hr := stateAfter_isResidue r.x a ((n - drainCount r.cur n) / B)
    simp only [tailPhase, if_neg h0, drainPhase, List.append_assoc, advance_eq hr ha, stateAfter_add]

end Sys2Proof.Machine
end

