-- ==== Sys2Proof/Laws/Stream.lean ====
section
/-! SUPPORT. The closed forms of a READ (spec/43_bulk_reader.md R143, R145) and how consecutive READs fit together (R146). -/

namespace Sys2Proof.Machine

open Sys2Proof.Safety

variable {w B : Nat}

/-- Element `j` of the fresh stream: what is delivered after the leftover values (R146). -/
def fresh (ext : Word576 → Vector (BitVec w) B) (x a : Word576) (j : Nat) : BitVec w :=
  (ext (stateAfter x a (1 + j / B))).toList.getD (j % B) 0

/-- Reading a list by index, from the front. -/
theorem map_getD_range (l : List (BitVec w)) (n : Nat) (h : n ≤ l.length) : (List.range n).map (fun i => l.getD i 0) = l.take n := by
  apply List.ext_getElem
  · simp [h]
  · intro i h1 h2
    simp only [List.length_map, List.length_range] at h1
    have hi : i < l.length := by omega
    simp [hi]

/-- Part of one batch, as elements of the fresh stream. -/
theorem fresh_batch (ext : Word576 → Vector (BitVec w) B) (x a : Word576) (q r : Nat) (hr : r ≤ B) (hB : 0 < B) :
    (List.range r).map (fun i => fresh ext x a (q * B + i)) = (ext (stateAfter x a (1 + q))).toList.take r := by
  rw [← map_getD_range _ _ (by simpa using hr)]
  apply List.map_congr_left
  intro i hi
  have hi : i < B := by have := List.mem_range.mp hi; omega
  have h1 : (q * B + i) / B = q := by
    rw [Nat.mul_comm, Nat.mul_add_div hB, Nat.div_eq_of_lt hi, Nat.add_zero]
  have h2 : (q * B + i) % B = i := by rw [Nat.mul_comm, Nat.mul_add_mod, Nat.mod_eq_of_lt hi]
  rw [fresh, h1, h2]

/-- Whole batches, as elements of the fresh stream (R146). -/
theorem fresh_batches (ext : Word576 → Vector (BitVec w) B) (x a : Word576) (q : Nat) (hB : 0 < B) :
    (List.range (q * B)).map (fresh ext x a) = batches ext x a q := by
  induction q with
  | zero => simp [batches]
  | succ q ih =>
    rw [Nat.succ_mul, List.range_add, List.map_append, ih, List.map_map]
    have := fresh_batch ext x a q B le_rfl hB
    rw [show (fresh ext x a ∘ fun x => q * B + x) = fun i => fresh ext x a (q * B + i) from rfl, this]
    rw [batches, batches, List.range_succ, List.flatMap_append]
    simp

/-- The fresh stream is whole batches and the head of one more (R145). -/
theorem fresh_stream (ext : Word576 → Vector (BitVec w) B) (x a : Word576) (m : Nat) (hB : 0 < B) :
    (List.range m).map (fresh ext x a) = batches ext x a (m / B) ++ (ext (stateAfter x a (m / B + 1))).toList.take (m % B) := by
  have hm : m = m / B * B + m % B := by rw [Nat.mul_comm]; exact (Nat.div_add_mod m B).symm
  conv_lhs => rw [hm, List.range_add, List.map_append, List.map_map]
  rw [fresh_batches ext x a _ hB]
  have := fresh_batch ext x a (m / B) (m % B) (Nat.mod_lt _ hB).le hB
  rw [show (fresh ext x a ∘ fun x => m / B * B + x) = fun i => fresh ext x a (m / B * B + i) from rfl, this, Nat.add_comm 1]

/-- What a READ delivers: leftover values, then the fresh stream (R145, R146). -/
theorem readOut_eq (ext : Word576 → Vector (BitVec w) B) (x a : Word576) (buf : Vector (BitVec w) B) (c n : Nat) (hc : c ≤ B) :
    readOut ext x a buf c n = (buf.toList.drop c).take n ++ (List.range (n - (B - c))).map (fresh ext x a) := by
  have hlen : (buf.toList.drop c).length = B - c := by simp
  have h1 : ∀ k, k ≤ B - c → (List.range k).map (readElem ext x a buf c) = (buf.toList.drop c).take k := by
    intro k hk
    rw [← map_getD_range _ _ (by rw [hlen]; exact hk)]
    apply List.map_congr_left
    intro i hi
    have hi := List.mem_range.mp hi
    rw [readElem, if_pos (by omega)]
    have hci : c + i < B := by omega
    have hi' : i < B - c := by omega
    simp [hci, hi']
  rw [readOut]
  by_cases hn : n ≤ B - c
  · rw [h1 n hn, Nat.sub_eq_zero_of_le hn]; simp
  · have e : n = (B - c) + (n - (B - c)) := by omega
    conv_lhs => rw [e, List.range_add, List.map_append, List.map_map]
    rw [h1 _ le_rfl, List.take_of_length_le (by rw [hlen]), List.take_of_length_le (by rw [hlen]; omega)]
    congr 1
    apply List.map_congr_left
    intro i _
    simp only [Function.comp]
    rw [readElem, if_neg (by omega), fresh]
    simp

/-- The number of draws, by quotient and remainder (R145). -/
theorem advanceCount_eq (B c n : Nat) (hB : 0 < B) : advanceCount B c n = if (n - (B - c)) % B = 0 then (n - (B-c)) / B else (n - (B-c)) / B + 1 := by
  rw [advanceCount]
  generalize n - (B - c) = m
  have h := Nat.div_add_mod m B
  have hlt := Nat.mod_lt m hB
  split_ifs with h0
  · rw [Nat.div_eq_iff hB]
    rw [h0] at h
    rw [Nat.mul_comm] at h
    constructor <;> omega
  · rw [Nat.div_eq_iff hB]
    rw [Nat.mul_comm] at h
    constructor
    · rw [Nat.succ_mul]; omega
    · rw [Nat.succ_mul]; omega

/-- The run a READ ends in, in the closed forms of Safety.lean (R143, R145). -/
theorem readEnd_eq (hB : 0 < B) (ext : Word576 → Vector (BitVec w) B) (a : Word576) (n : Nat) (r : ReadRun w B) (ho : r.out = []) :
    readEnd ext a n r =
    { x := stateAfter r.x a (advanceCount B r.cur.val n), cur := Fin.ofNat (B+1) (cursorEnd B r.cur.val n),
      buf := bufferEnd ext r.x a r.buf r.cur.val n, out := readOut ext r.x a r.buf r.cur.val n } := by
  have hc : r.cur.val ≤ B := by have := r.cur.isLt; omega
  have hrem : n - drainCount r.cur n = n - (B - r.cur.val) := by rw [drainCount]; omega
  have htake : (r.buf.toList.drop r.cur.val).take (drainCount r.cur n) = (r.buf.toList.drop r.cur.val).take n := by
    rw [drainCount]
    by_cases h : n ≤ B - r.cur.val
    · rw [min_eq_right h]
    · rw [min_eq_left (by omega), List.take_of_length_le (by simp), List.take_of_length_le (by simp; omega)]
  simp only [readEnd, hrem]
  rw [readOut_eq _ _ _ _ _ _ hc, advanceCount_eq B _ n hB, fresh_stream _ _ _ _ hB]
  simp only [drainPhase, ho, List.nil_append, htake, bufferEnd, cursorEnd, List.append_assoc]
  by_cases h0 : (n - (B - r.cur.val)) % B = 0
  · simp only [h0, List.take_zero, List.append_nil, or_true, if_true]
    congr 2
    rw [drainCount]
    split_ifs <;> omega
  · have : ¬ n ≤ B - r.cur.val := by intro h; rw [Nat.sub_eq_zero_of_le h] at h0; simp at h0
    simp only [this, h0, or_self, if_false, advanceCount_eq B _ n hB]

/-- A READ that leftover values cover makes no draw, whatever the registers hold (R145). -/
theorem readRun_small (ext : Word576 → Vector (BitVec w) B) (a : Word576) (n : Nat) (r : ReadRun w B) (hn : n ≤ B - r.cur.val) :
    readRun a ext n r = .ok { r with cur := Fin.ofNat (B+1) (r.cur.val + n), out := r.out ++ (r.buf.toList.drop r.cur.val).take n } := by
  have h1 : drainCount r.cur n = n := by rw [drainCount]; omega
  simp [readRun, h1, bulkPhase, tailPhase, drainPhase]

/-- A READ that needs a draw from registers that are no residues: its leftover values, and then the refused request (R185, R187). -/
theorem readRun_refused (ext : Word576 → Vector (BitVec w) B) (a : Word576) (n : Nat) (r : ReadRun w B)
    (hn : B - r.cur.val < n) (hr : ¬(isResidue r.x = true ∧ isResidue a = true)) :
    readRun a ext n r = .error { r with cur := Fin.ofNat (B+1) B, out := r.out ++ r.buf.toList.drop r.cur.val } := by
  have hc : r.cur.val ≤ B := by have := r.cur.isLt; omega
  have h1 : drainCount r.cur n = B - r.cur.val := by rw [drainCount]; omega
  have hd : drainPhase n r = { r with cur := Fin.ofNat (B+1) B, out := r.out ++ r.buf.toList.drop r.cur.val } := by
    rw [drainPhase, h1, List.take_of_length_le (by simp), show r.cur.val + (B - r.cur.val) = B by omega]
  rw [← hd]
  simp only [readRun, h1]
  have hadv : ∀ q : ReadRun w B, q.x = r.x → advance q.x a = none := by
    intro q hq; rw [hq, advance, mulMod_eq_none hr]
  cases hq : (n - (B - r.cur.val)) / B with
  | zero =>
    have : (n - (B - r.cur.val)) % B ≠ 0 := by
      intro h0
      have := Nat.div_add_mod (n - (B - r.cur.val)) B
      rw [hq, h0] at this; omega
    simp only [bulkPhase, tailPhase, if_neg this, hadv (drainPhase n r) rfl]
  | succ q => simp only [bulkPhase, hadv (drainPhase n r) rfl]

/-- The cursor stays legal (R24, R25). -/
theorem cursorEnd_le {B c : Nat} (hB : 0 < B) (hc : c ≤ B) (n : Nat) : cursorEnd B c n ≤ B := by
  rw [cursorEnd]
  have := Nat.mod_lt (n - (B - c)) hB
  split_ifs <;> omega

/-- After `n` elements, the next one read is element `n` of the stream (R146). -/
theorem readElem_shift (hB : 0 < B) (ext : Word576 → Vector (BitVec w) B) {x : Word576} (a : Word576) (hx : isResidue x = true)
    (buf : Vector (BitVec w) B) {c : Nat} (hc : c ≤ B) (n i : Nat) :
    readElem ext (stateAfter x a (advanceCount B c n)) a (bufferEnd ext x a buf c n) (cursorEnd B c n) i = readElem ext x a buf c (n + i) := by
  by_cases h1 : n ≤ B - c
  · have e1 : advanceCount B c n = 0 := by rw [advanceCount_eq B c n hB, Nat.sub_eq_zero_of_le h1]; simp
    have e2 : bufferEnd ext x a buf c n = buf := by rw [bufferEnd, if_pos (.inl h1)]
    have e3 : cursorEnd B c n = c + n := by rw [cursorEnd, if_pos h1]
    rw [e1, e2, e3, stateAfter_zero hx, readElem, readElem]
    by_cases h : i < B - (c + n)
    · rw [if_pos h, if_pos (by omega), Nat.add_assoc]
    · rw [if_neg h, if_neg (by omega), show i - (B - (c + n)) = n + i - (B - c) by omega]
  · rw [advanceCount_eq B c n hB, bufferEnd, cursorEnd, advanceCount_eq B c n hB]
    have hm : n + i - (B - c) = (n - (B - c)) + i := by omega
    have hni : ¬ n + i < B - c := by omega
    simp only [h1, if_false, false_or]
    simp only [readElem]
    rw [if_neg hni, hm]
    generalize n - (B - c) = m
    have hd := Nat.div_add_mod m B
    have hlt := Nat.mod_lt m hB
    by_cases h0 : m % B = 0
    · simp only [h0, if_true, Nat.sub_self, Nat.not_lt_zero, if_false, Nat.sub_zero, stateAfter_add]
      have hm' : m = B * (m / B) := by omega
      have q1 : (m + i) / B = m / B + i / B := by
        conv_lhs => rw [hm', Nat.mul_add_div hB]
      have q2 : (m + i) % B = i % B := by
        conv_lhs => rw [hm', Nat.mul_add_mod]
      rw [q1, q2, show m / B + (1 + i / B) = 1 + (m / B + i / B) by omega]
    · simp only [h0, if_false]
      by_cases hi : i < B - m % B
      · rw [if_pos hi]
        have q1 : (m + i) / B = m / B := by
          conv_lhs => rw [← hd, Nat.add_assoc, Nat.mul_add_div hB, Nat.div_eq_of_lt (show m % B + i < B by omega), Nat.add_zero]
        have q2 : (m + i) % B = m % B + i := by
          conv_lhs => rw [← hd, Nat.add_assoc, Nat.mul_add_mod, Nat.mod_eq_of_lt (show m % B + i < B by omega)]
        rw [q1, q2, Nat.add_comm 1]
      · rw [if_neg hi, stateAfter_add]
        have e : m + i = B * (m / B + 1) + (i - (B - m % B)) := by rw [Nat.mul_add]; omega
        rw [e, Nat.mul_add_div hB, Nat.mul_add_mod]
        congr 4; omega

/-- One READ of `n + m` delivers what a READ of `n` and a READ of `m` deliver (R146). -/
theorem readOut_append (hB : 0 < B) (ext : Word576 → Vector (BitVec w) B) {x : Word576} (a : Word576) (hx : isResidue x = true)
    (buf : Vector (BitVec w) B) {c : Nat} (hc : c ≤ B) (n m : Nat) :
    readOut ext x a buf c (n + m) = readOut ext x a buf c n ++
      readOut ext (stateAfter x a (advanceCount B c n)) a (bufferEnd ext x a buf c n) (cursorEnd B c n) m := by
  rw [readOut, List.range_add, List.map_append, List.map_map, readOut, readOut]
  congr 1
  apply List.map_congr_left
  intro i _
  exact (readElem_shift hB ext a hx buf hc n i).symm

/-- Draws of two READs add up (R146). -/
theorem advance_add (hB : 0 < B) {c : Nat} (hc : c ≤ B) (n m : Nat) :
    advanceCount B c n + advanceCount B (cursorEnd B c n) m = advanceCount B c (n + m) := by
  by_cases h1 : n ≤ B - c
  · have e1 : advanceCount B c n = 0 := by rw [advanceCount_eq B c n hB, Nat.sub_eq_zero_of_le h1]; simp
    rw [e1, cursorEnd, if_pos h1, Nat.zero_add, advanceCount, advanceCount]
    congr 2; omega
  · rw [cursorEnd, if_neg h1, advanceCount, advanceCount, advanceCount, show n + m - (B - c) = n - (B - c) + m by omega]
    have hpos : 0 < n - (B - c) := by omega
    generalize n - (B - c) = k at *
    have hd := Nat.div_add_mod k B
    have hlt := Nat.mod_lt k hB
    by_cases h0 : k % B = 0
    · rw [if_pos h0, Nat.sub_self, Nat.sub_zero]
      have hk : k = B * (k / B) := by omega
      conv_lhs => rw [hk]
      conv_rhs => rw [hk]
      rw [Nat.add_assoc, Nat.mul_add_div hB, Nat.mul_add_div hB, Nat.div_eq_of_lt (show B - 1 < B by omega)]
      simp
    · rw [if_neg h0]
      have q1 : (k + (B - 1)) / B = k / B + 1 := by
        conv_lhs => rw [← hd]
        rw [show B * (k / B) + k % B + (B - 1) = B * (k / B + 1) + (k % B - 1) by rw [Nat.mul_add]; omega, Nat.mul_add_div hB, Nat.div_eq_of_lt (show k % B - 1 < B by omega)]
      rw [q1]
      by_cases hm : m ≤ B - k % B
      · rw [Nat.sub_eq_zero_of_le hm, Nat.zero_add, Nat.div_eq_of_lt (show B - 1 < B by omega), Nat.add_zero]
        rw [show k + m + (B - 1) = B * (k / B + 1) + (k % B + m - 1) by rw [Nat.mul_add]; omega, Nat.mul_add_div hB, Nat.div_eq_of_lt (show k % B + m - 1 < B by omega)]
      · rw [show k + m + (B - 1) = B * (k / B + 1) + (m - (B - k % B) + (B - 1)) by rw [Nat.mul_add]; omega, Nat.mul_add_div hB]

/-- The cursor after two READs (R146). -/
theorem cursor_add (hB : 0 < B) {c : Nat} (hc : c ≤ B) (n m : Nat) :
    cursorEnd B (cursorEnd B c n) m = cursorEnd B c (n + m) := by
  by_cases h1 : n ≤ B - c
  · have e : cursorEnd B c n = c + n := by rw [cursorEnd, if_pos h1]
    rw [e, cursorEnd, cursorEnd, show n + m - (B - c) = m - (B - (c + n)) by omega]
    split_ifs <;> omega
  · have e : cursorEnd B c n = if (n - (B - c)) % B = 0 then B else (n - (B - c)) % B := by rw [cursorEnd, if_neg h1]
    rw [e, cursorEnd, cursorEnd, if_neg (show ¬ n + m ≤ B - c by omega), show n + m - (B - c) = n - (B - c) + m by omega]
    have hpos : 0 < n - (B - c) := by omega
    generalize n - (B - c) = k at *
    have hd := Nat.div_add_mod k B
    have hlt := Nat.mod_lt k hB
    by_cases h0 : k % B = 0
    · have q : (k + m) % B = m % B := by rw [Nat.add_mod, h0, Nat.zero_add, Nat.mod_mod]
      simp only [h0, if_true, Nat.sub_self, Nat.sub_zero, q, Nat.le_zero]
      split_ifs with h2 <;> simp_all
    · simp only [h0, if_false]
      by_cases hm : m ≤ B - k % B
      · rw [if_pos hm]
        by_cases hm' : m = B - k % B
        · have : (k + m) % B = 0 := by rw [hm', ← Nat.mod_add_mod, Nat.add_sub_cancel' hlt.le, Nat.mod_self]
          rw [if_pos this]; omega
        · have : (k + m) % B = k % B + m := by rw [← Nat.mod_add_mod, Nat.mod_eq_of_lt]; omega
          rw [this, if_neg (by omega)]
      · rw [if_neg hm]
        have : (k + m) % B = (m - (B - k % B)) % B := by
          rw [show k + m = B * (k / B + 1) + (m - (B - k % B)) by rw [Nat.mul_add]; omega, Nat.mul_add_mod]
        rw [this]

/-- The undelivered entries after two READs (R146). -/
theorem buffer_add (hB : 0 < B) (ext : Word576 → Vector (BitVec w) B) {x : Word576} (a : Word576) (hx : isResidue x = true)
    (buf : Vector (BitVec w) B) {c : Nat} (hc : c ≤ B) (n m : Nat) :
    sameFrom (cursorEnd B c (n + m))
      (bufferEnd ext (stateAfter x a (advanceCount B c n)) a (bufferEnd ext x a buf c n) (cursorEnd B c n) m)
      (bufferEnd ext x a buf c (n + m)) := by
  apply List.ext_getElem
  · simp
  · intro i h1 h2
    have hc' := cursorEnd_le hB hc n
    have hi : i < B - cursorEnd B c (n + m) := by simpa using h1
    have key := readElem_shift hB ext a hx buf hc (n + m) i
    have key2 := readElem_shift hB ext a (stateAfter_isResidue x a (advanceCount B c n)) (bufferEnd ext x a buf c n) hc' m i
    rw [cursor_add hB hc] at key2
    rw [readElem_shift hB ext a hx buf hc, ← Nat.add_assoc] at key2
    rw [← key] at key2
    simp only [readElem, if_pos hi] at key2
    have hlt : cursorEnd B c (n + m) + i < B := by omega
    simp only [List.getD_eq_getElem?_getD, Vector.length_toList, hlt, List.getElem?_eq_getElem, Option.getD_some] at key2
    simpa using key2

/-- Numbering elements loses none of them (R44). -/
theorem outWritesFrom_elems (o : Nat) (l : List OutElem) : elems (outWritesFrom o l) = l := by
  induction l generalizing o with
  | nil => rfl
  | cons v l ih => rw [outWritesFrom, elems, List.map_cons, ← elems, ih]

/-- What was delivered, from what was appended. -/
theorem newElems_of {s t : State} {l : List OutWrite} (h : t.out = s.out ++ l) : newElems s t = elems l := by
  rw [newElems, h, List.drop_left]

/-- Elements of a transcript in two parts. -/
theorem elems_append (l m : List OutWrite) : elems (l ++ m) = elems l ++ elems m := List.map_append

end Sys2Proof.Machine
end

