-- ==== Sys2Proof/Laws/Control.lean ====
section
/-! SUPPORT. What each part of the control machine does from entry to exit: POWMOD's loop, delivery, the three phases of a READ. -/

namespace Sys2Proof.Machine

open Sys2Proof.Safety

variable {P : Params}

/-- A command is in progress: BUSY is 1 and the control state is neither IDLE nor FAULTED (R27, R104). -/
def Inside (m : Micro) : Prop := m.core.busy = true ∧ m.ctl ≠ .idle ∧ m.ctl ≠ .faulted

/-- `m` gets to `n` by transitions, a command being in progress before each of them. -/
def Reach (P : Params) (m m' : Micro) : Prop := ∃ k, microRunWith P k m = m' ∧ ∀ j < k, Inside (microRunWith P j m)

theorem Reach.refl (m : Micro) : Reach P m m := ⟨0, rfl, fun _ h => absurd h (Nat.not_lt_zero _)⟩

/-- One transition more at the front. -/
theorem Reach.step {m m' : Micro} (h : Inside m) (h' : Reach P (microWith P m) m') : Reach P m m' := by
  obtain ⟨k, h1, h2⟩ := h'
  refine ⟨k + 1, h1, ?_⟩
  intro j hj
  cases j with
  | zero => exact h
  | succ j => exact h2 j (by omega)

theorem Reach.trans {m m' m'' : Micro} (h : Reach P m m') (h' : Reach P m' m'') : Reach P m m'' := by
  obtain ⟨k, h1, h2⟩ := h
  induction k generalizing m with
  | zero => cases h1; exact h'
  | succ k ih => exact Reach.step (h2 0 (by omega)) (ih h1 (fun j hj => h2 (j + 1) (by omega)))

/-- PW_TEST to PW_DONE, where each request of the loop has a result (R87). -/
theorem pw_loop (i : Nat) (m : Micro) (r : Word576) (hb : m.core.busy = true) (hc : m.ctl = .pwTest) (hi : m.bits = i)
    (h : powLoop m.bs m.e i m.acc = some r) : Reach P m { m with acc := r, bits := 0, ctl := .pwDone } := by
  induction i generalizing m with
  | zero =>
    rw [powLoop] at h; injection h with h
    refine Reach.step ⟨hb, by rw [hc]; decide, by rw [hc]; decide⟩ ?_
    have : microWith P m = { m with acc := r, bits := 0, ctl := .pwDone } := by
      rw [microWith, hc]; simp only [hi, if_true]; rw [h, ← hi]
    rw [this]; exact Reach.refl _
  | succ i ih =>
    rw [powLoop] at h
    cases hs : mulMod m.acc m.acc with
    | none => rw [hs] at h; cases h
    | some sq =>
      rw [hs, Option.bind_some] at h
      have e1 : microWith P m = { m with ctl := .pwSqr } := by
        rw [microWith, hc]; simp only [hi, Nat.succ_ne_zero, if_false]
      have e2 : microWith P { m with ctl := .pwSqr } = { m with acc := sq, ctl := if exponentBit m.e i then .pwMul else .pwNext } := by
        rw [microWith]; simp only [hs, hi, Nat.add_sub_cancel]
      refine Reach.step ⟨hb, by rw [hc]; decide, by rw [hc]; decide⟩ ?_
      rw [e1]
      refine Reach.step ⟨hb, (by simp), (by simp)⟩ ?_
      rw [e2]
      by_cases hbit : exponentBit m.e i = true
      · rw [if_pos hbit] at h
        rw [if_pos hbit]
        cases hm : mulMod sq m.bs with
        | none => rw [hm] at h; cases h
        | some r2 =>
          rw [hm, Option.bind_some] at h
          have e3 : microWith P { m with acc := sq, ctl := .pwMul } = { m with acc := r2, ctl := .pwNext } := by
            rw [microWith]; simp only [hm]
          have e4 : microWith P { m with acc := r2, ctl := .pwNext } = { m with acc := r2, bits := i, ctl := .pwTest } := by
            rw [microWith]; simp only [hi, Nat.add_sub_cancel]
          refine Reach.step ⟨hb, (by simp), (by simp)⟩ ?_
          rw [e3]
          refine Reach.step ⟨hb, (by simp), (by simp)⟩ ?_
          rw [e4]
          exact ih { m with acc := r2, bits := i, ctl := .pwTest } hb rfl rfl h
      · rw [if_neg hbit, Option.bind_some] at h
        rw [if_neg hbit]
        have e4 : microWith P { m with acc := sq, ctl := .pwNext } = { m with acc := sq, bits := i, ctl := .pwTest } := by
          rw [microWith]; simp only [hi, Nat.add_sub_cancel]
        refine Reach.step ⟨hb, (by simp), (by simp)⟩ ?_
        rw [e4]
        exact ih { m with acc := sq, bits := i, ctl := .pwTest } hb rfl rfl h

/-- A call of POWMOD runs to PW_DONE with its result in `acc` (R85, R87). -/
theorem pw_call (c : Caller) (base : Word576) (n : Operand) (m : Micro) (r : Word576) (hb : m.core.busy = true) (h : powMod base n = some r) :
    ∃ b, Reach P (callPow c base n m) { m with caller := c, bs := base, e := n, acc := r, bits := b, ctl := .pwDone } := by
  rw [powMod] at h
  by_cases hn : n = 0
  · rw [if_pos hn] at h; injection h with h
    refine ⟨m.bits, Reach.step ⟨hb, (by simp [callPow]), (by simp [callPow])⟩ ?_⟩
    have : microWith P (callPow c base n m) = { m with caller := c, bs := base, e := n, acc := r, bits := m.bits, ctl := .pwDone } := by
      rw [microWith, callPow]; simp only [hn, if_true, h]
    rw [this]; exact Reach.refl _
  · rw [if_neg hn] at h
    refine ⟨0, Reach.step ⟨hb, (by simp [callPow]), (by simp [callPow])⟩ ?_⟩
    have : microWith P (callPow c base n m) = { m with caller := c, bs := base, e := n, acc := base, bits := msb (operandValue n), ctl := .pwTest } := by
      rw [microWith, callPow]; simp only [hn, if_false]
    rw [this]
    exact pw_loop _ { m with caller := c, bs := base, e := n, acc := base, bits := msb (operandValue n), ctl := .pwTest } r hb rfl rfl h

/-- From `m` the command runs to its end, in the state `t`. -/
def Ends (P : Params) (m : Micro) (t : State) : Prop := ∃ m', Reach P m m' ∧ m'.core = t ∧ m'.ctl = (if t.fault then .faulted else .idle)

/-- A command that calls POWMOD ends as it ends from PW_DONE. -/
theorem ends_pw {c : Caller} {base : Word576} {n : Operand} {m : Micro} {r : Word576} {t : State} (hb : m.core.busy = true) (h : powMod base n = some r)
    (k : ∀ b, Ends P { m with caller := c, bs := base, e := n, acc := r, bits := b, ctl := .pwDone } t) : Ends P (callPow c base n m) t := by
  obtain ⟨b, hr⟩ := pw_call c base n m r hb h
  obtain ⟨m', h1, h2⟩ := k b
  exact ⟨m', hr.trans h1, h2⟩

theorem ends_step {m : Micro} {t : State} (h : Inside m) (h' : Ends P (microWith P m) t) : Ends P m t := by
  obtain ⟨m', h1, h2⟩ := h'
  exact ⟨m', Reach.step h h1, h2⟩

theorem ends_reach {m n : Micro} {t : State} (h : Reach P m n) (h' : Ends P n t) : Ends P m t := by
  obtain ⟨m', h1, h2⟩ := h'
  exact ⟨m', h.trans h1, h2⟩

theorem ends_done (m : Micro) (t : State) (h : t.fault = false) : Ends P (microDone t m) (complete t) :=
  ⟨_, Reach.refl _, rfl, by show Ctl.idle = _; rw [show (complete t).fault = false from h]; rfl⟩

theorem ends_fault (m : Micro) (t : State) (h : t.fault = true) : Ends P (microFault t m) t :=
  ⟨_, Reach.refl _, rfl, by rw [h]; rfl⟩

/-- The core with these elements delivered as elements `o, o+1, …` of the command (R44). -/
def coreOut (o : Nat) (l : List OutElem) (s : State) : State := { s with out := s.out ++ outWritesFrom o l }

/-- Transactions of two lists in a row (R44). -/
theorem owf_append (o : Nat) (l l' : List OutElem) : outWritesFrom o (l ++ l') = outWritesFrom o l ++ outWritesFrom (o + l.length) l' := by
  induction l generalizing o with
  | nil => rfl
  | cons v l ih => rw [List.cons_append, outWritesFrom, outWritesFrom, ih, List.cons_append, List.length_cons, show o + 1 + l.length = o + (l.length + 1) by omega]

theorem coreOut_append (o : Nat) (l l' : List OutElem) (s : State) : coreOut (o + l.length) l' (coreOut o l s) = coreOut o (l ++ l') s := by
  simp only [coreOut, owf_append, List.append_assoc]

theorem coreOut_nil (o : Nat) (s : State) : coreOut o [] s = s := by simp [coreOut, outWritesFrom]

theorem batchSize_pos (p : Precision) : 0 < batchSize p := by cases p <;> decide

theorem cursor_le (p : Precision) (s : State) : cursorOf p s ≤ batchSize p := by
  cases p
  · exact Nat.le_of_lt_succ s.fcur.isLt
  · exact Nat.le_of_lt_succ s.dcur.isLt

theorem setCursor_self (p : Precision) (s : State) : setCursor p (cursorOf p s) s = s := by
  cases p
  · have : Fin.ofNat (batchF + 1) s.fcur.val = s.fcur := Fin.ext (Nat.mod_eq_of_lt s.fcur.isLt)
    simp only [setCursor, cursorOf, this]
  · have : Fin.ofNat (batchD + 1) s.dcur.val = s.dcur := Fin.ext (Nat.mod_eq_of_lt s.dcur.isLt)
    simp only [setCursor, cursorOf, this]

theorem cursor_set (p : Precision) (s : State) (c : Nat) (h : c ≤ batchSize p) : cursorOf p (setCursor p c s) = c := by
  cases p
  · exact Nat.mod_eq_of_lt (Nat.lt_succ_of_le h)
  · exact Nat.mod_eq_of_lt (Nat.lt_succ_of_le h)

theorem buffer_len (p : Precision) (s : State) : (bufferOf p s).length = batchSize p := by cases p <;> simp [bufferOf, batchSize]

theorem extract_len (p : Precision) (v) : (extractOf p v).length = batchSize p := by cases p <;> simp [extractOf, batchSize]

/-- BULK and TAIL deliver what is at hand, one transaction a transition (R143, R150). -/
theorem reach_deliver (l : List OutElem) (m : Micro) (hb : m.core.busy = true) (hc : m.ctl = .bulk ∨ m.ctl = .tail) (hl : m.batch = l) :
    Reach P m { m with core := coreOut m.o l m.core, batch := [], o := m.o + l.length, rem := m.rem - l.length } := by
  induction l generalizing m with
  | nil =>
    have : ({ m with core := coreOut m.o [] m.core, batch := [], o := m.o + ([] : List OutElem).length, rem := m.rem - ([] : List OutElem).length } : Micro) = m := by
      rw [coreOut_nil, ← hl]
      cases m; simp at hl; subst hl; rfl
    rw [this]; exact Reach.refl m
  | cons v l ih =>
    refine Reach.step ⟨hb, by rcases hc with h | h <;> rw [h] <;> decide, by rcases hc with h | h <;> rw [h] <;> decide⟩ ?_
    have : microWith P m = { m with core := coreOut m.o [v] m.core, batch := l, o := m.o + 1, rem := m.rem - 1 } := by
      rcases hc with h | h
      · rw [microWith, h]; simp only [microBulk, hl, deliverOne]; rw [h]; rfl
      · rw [microWith, h]; simp only [microTail, hl, deliverOne]; rw [h]; rfl
    rw [this]
    have hI := ih { m with core := coreOut m.o [v] m.core, batch := l, o := m.o + 1, rem := m.rem - 1 } hb hc rfl
    dsimp only at hI
    have e := coreOut_append m.o [v] l m.core
    rw [show ([v] : List OutElem).length = 1 from rfl] at e
    rw [e] at hI
    rw [List.length_cons, show m.o + (l.length + 1) = m.o + 1 + l.length by omega, show m.rem - (l.length + 1) = m.rem - 1 - l.length by omega]
    exact hI

/-- DRAIN delivers the leftover values that are wanted, then BULK (R143). -/
theorem reach_drain (t : Nat) (m : Micro) (hb : m.core.busy = true) (hc : m.ctl = .drain)
    (ht : t = min (batchSize m.prec - cursorOf m.prec m.core) m.rem) :
    Reach P m { m with core := setCursor m.prec (cursorOf m.prec m.core + t) (coreOut m.o (((bufferOf m.prec m.core).drop (cursorOf m.prec m.core)).take t) m.core), o := m.o + t, rem := m.rem - t, ctl := .bulk } := by
  have hcle := cursor_le m.prec m.core
  have hlen := buffer_len m.prec m.core
  induction t generalizing m with
  | zero =>
    refine Reach.step ⟨hb, by rw [hc]; decide, by rw [hc]; decide⟩ ?_
    have : microWith P m = { m with ctl := .bulk } := by
      rw [microWith, hc]
      simp only [microDrain]
      split
      · next v hv =>
        have : cursorOf m.prec m.core < batchSize m.prec := by
          rw [← hlen]; exact (List.getElem?_eq_some_iff.mp hv).1
        have h0 : m.rem = 0 := by omega
        simp [h0]
      · rfl
    rw [this, List.take_zero, coreOut_nil, Nat.add_zero, setCursor_self]
    exact Reach.refl _
  | succ t ih =>
    have hlt : cursorOf m.prec m.core < batchSize m.prec := by omega
    have hrem : 0 < m.rem := by omega
    refine Reach.step ⟨hb, by rw [hc]; decide, by rw [hc]; decide⟩ ?_
    have hv : (bufferOf m.prec m.core)[cursorOf m.prec m.core]? = some ((bufferOf m.prec m.core)[cursorOf m.prec m.core]'(by rw [hlen]; exact hlt)) := List.getElem?_eq_getElem _
    have hd : ((bufferOf m.prec m.core).drop (cursorOf m.prec m.core)) = (bufferOf m.prec m.core)[cursorOf m.prec m.core]'(by rw [hlen]; exact hlt) :: (bufferOf m.prec m.core).drop (cursorOf m.prec m.core + 1) := List.drop_eq_getElem_cons _
    generalize (bufferOf m.prec m.core)[cursorOf m.prec m.core]'(by rw [hlen]; exact hlt) = v at *
    have : microWith P m = { m with core := setCursor m.prec (cursorOf m.prec m.core + 1) (coreOut m.o [v] m.core), o := m.o + 1, rem := m.rem - 1 } := by
      rw [microWith, hc]
      simp only [microDrain, hv, if_pos hrem, deliverOne]
      rw [hc]
      cases m.prec <;> rfl
    rw [this]
    have c1 : cursorOf m.prec (setCursor m.prec (cursorOf m.prec m.core + 1) (coreOut m.o [v] m.core)) = cursorOf m.prec m.core + 1 := cursor_set _ _ _ hlt
    have b1 : bufferOf m.prec (setCursor m.prec (cursorOf m.prec m.core + 1) (coreOut m.o [v] m.core)) = bufferOf m.prec m.core := by cases m.prec <;> rfl
    have hI := ih { m with core := setCursor m.prec (cursorOf m.prec m.core + 1) (coreOut m.o [v] m.core), o := m.o + 1, rem := m.rem - 1 }
      (by have : ∀ p c s, (setCursor p c s).busy = s.busy := by intro p c s; cases p <;> rfl
          dsimp only; rw [this]; exact hb) hc (by dsimp only; rw [c1]; omega) (by dsimp only; rw [c1]; exact hlt) (by dsimp only; rw [b1]; exact hlen)
    dsimp only at hI
    rw [c1, b1] at hI
    have e1 : ∀ c c' l o, setCursor m.prec c' (coreOut o l (setCursor m.prec c (coreOut m.o [v] m.core))) = setCursor m.prec c' (coreOut o l (coreOut m.o [v] m.core)) := by
      intro c c' l o; cases m.prec <;> rfl
    rw [e1] at hI
    have e2 := coreOut_append m.o [v] (((bufferOf m.prec m.core).drop (cursorOf m.prec m.core + 1)).take t) m.core
    rw [show ([v] : List OutElem).length = 1 from rfl] at e2
    rw [e2] at hI
    rw [hd, List.take_succ_cons]
    rw [show cursorOf m.prec m.core + 1 + t = cursorOf m.prec m.core + (t + 1) by omega, show m.o + 1 + t = m.o + (t + 1) by omega, show m.rem - 1 - t = m.rem - (t + 1) by omega] at hI
    exact hI

/-- The elements of `q` batches made from `x` (R143). -/
def batchesOf (p : Precision) (x a : Word576) (q : Nat) : List OutElem :=
  (List.range q).flatMap fun i => extractOf p (stateAfter x a (1 + i))

theorem batchesOf_succ (p : Precision) (x a : Word576) (q : Nat) :
    batchesOf p x a (q + 1) = extractOf p (stateAfter x a 1) ++ batchesOf p (stateAfter x a 1) a q := by
  have key : ∀ f : Word576 → List OutElem, ((List.range (q + 1)).flatMap fun i => f (stateAfter x a (1 + i))) =
      f (stateAfter x a 1) ++ (List.range q).flatMap fun i => f (stateAfter (stateAfter x a 1) a (1 + i)) := by
    intro f
    rw [List.range_succ_eq_map, List.flatMap_cons, List.flatMap_map]
    congr 1
    apply List.flatMap_congr
    intro i _
    rw [stateAfter_add, Nat.succ_eq_add_one, Nat.add_comm i 1]
  exact key (extractOf p)

theorem busy_set (p : Precision) (v) (s : State) (c) : (setCursor p c (setBuffer p v s)).busy = s.busy := by cases p <;> simp only [setCursor, setBuffer]

theorem fault_set (p : Precision) (v) (s : State) (c) : (setCursor p c (setBuffer p v s)).fault = s.fault := by cases p <;> simp only [setCursor, setBuffer]

/-- TAIL with nothing left ends the command (R143). -/
theorem ends_tail (m : Micro) (hb : m.core.busy = true) (hf : m.core.fault = false) (hc : m.ctl = .tail) (hl : m.batch = []) :
    m.rem = 0 → Ends P m (complete m.core) := by
  intro h0
  refine ends_step ⟨hb, by rw [hc]; decide, by rw [hc]; decide⟩ ?_
  have : microWith P m = microDone m.core m := by
    rw [microWith, hc]; simp only [microTail, hl, h0, Nat.lt_irrefl, if_false]
  rw [this]
  exact ends_done m m.core hf

/-- TAIL with a remainder left: one draw, one batch into the buffer, its head delivered (R143). -/
theorem ends_tail_pos (m : Micro) (hb : m.core.busy = true) (hf : m.core.fault = false) (hc : m.ctl = .tail) (hl : m.batch = [])
    (h0 : 0 < m.rem) (hB : m.rem < batchSize m.prec) (hx : isResidue m.core.x = true) (ha : isResidue m.core.a = true) :
    Ends P m (complete (coreOut m.o ((extractOf m.prec (stateAfter m.core.x m.core.a 1)).take m.rem)
      (setCursor m.prec m.rem (setBuffer m.prec (stateAfter m.core.x m.core.a 1) { m.core with x := stateAfter m.core.x m.core.a 1 })))) := by
  refine ends_step ⟨hb, by rw [hc]; decide, by rw [hc]; decide⟩ ?_
  have e1 : microWith P m = { m with ctl := .adv, inTail := true } := by
    rw [microWith, hc]; simp only [microTail, hl, h0, if_true]
  rw [e1]
  refine ends_step ⟨hb, (by simp), (by simp)⟩ ?_
  have e2 : microWith P { m with ctl := .adv, inTail := true } = { m with core := { m.core with x := stateAfter m.core.x m.core.a 1 }, ctl := .ext, inTail := true } := by
    rw [microWith]; simp only [microAdv, advance_eq hx ha]
  rw [e2]
  refine ends_step ⟨hb, (by simp), (by simp)⟩ ?_
  have e3 : microWith P { m with core := { m.core with x := stateAfter m.core.x m.core.a 1 }, ctl := .ext, inTail := true } =
     { m with core := setCursor m.prec m.rem (setBuffer m.prec (stateAfter m.core.x m.core.a 1) { m.core with x := stateAfter m.core.x m.core.a 1 }), ctl := .tail, inTail := true, batch := (extractOf m.prec (stateAfter m.core.x m.core.a 1)).take m.rem } := by
    rw [microWith]; simp only [microExt, if_true]
  rw [e3]
  generalize hv : stateAfter m.core.x m.core.a 1 = v
  have hb1 : (setCursor m.prec m.rem (setBuffer m.prec v { m.core with x := v })).busy = true := by rw [busy_set]; exact hb
  have hf1 : (setCursor m.prec m.rem (setBuffer m.prec v { m.core with x := v })).fault = false := by rw [fault_set]; exact hf
  generalize setCursor m.prec m.rem (setBuffer m.prec v { m.core with x := v }) = s1 at *
  refine ends_reach (reach_deliver ((extractOf m.prec v).take m.rem) { m with core := s1, ctl := .tail, inTail := true, batch := (extractOf m.prec v).take m.rem } hb1 (.inr rfl) rfl) ?_
  refine ends_tail { m with core := coreOut m.o ((extractOf m.prec v).take m.rem) s1, ctl := .tail, inTail := true, batch := [], o := m.o + ((extractOf m.prec v).take m.rem).length, rem := m.rem - ((extractOf m.prec v).take m.rem).length } hb1 hf1 rfl rfl ?_
  dsimp only
  rw [List.length_take, extract_len]; omega

/-- BULK on residues: as many whole batches as the rest holds, then TAIL (R143). -/
theorem reach_bulk (q : Nat) (m : Micro) (hb : m.core.busy = true) (hc : m.ctl = .bulk) (hl : m.batch = [])
    (hq : m.rem / batchSize m.prec = q) (hx : isResidue m.core.x = true) (ha : isResidue m.core.a = true) :
    ∃ it, Reach P m { m with core := coreOut m.o (batchesOf m.prec m.core.x m.core.a q) { m.core with x := stateAfter m.core.x m.core.a q }, o := m.o + q * batchSize m.prec, rem := m.rem % batchSize m.prec, ctl := .tail, inTail := it } := by
  have hB := batchSize_pos m.prec
  induction q generalizing m with
  | zero =>
    refine ⟨m.inTail, Reach.step ⟨hb, by rw [hc]; decide, by rw [hc]; decide⟩ ?_⟩
    have hlt : m.rem < batchSize m.prec := (Nat.div_eq_zero_iff_lt hB).mp hq
    have : microWith P m = { m with ctl := .tail } := by
      rw [microWith, hc]; simp only [microBulk, hl, if_neg (Nat.not_le.mpr hlt)]
    rw [this, stateAfter_zero hx, Nat.mod_eq_of_lt hlt, Nat.zero_mul, Nat.add_zero]
    have e : coreOut m.o (batchesOf m.prec m.core.x m.core.a 0) m.core = m.core := coreOut_nil _ _
    have e2 : ({ m.core with x := m.core.x } : State) = m.core := rfl
    rw [e2, e]
    exact Reach.refl _
  | succ q ih =>
    have hle : batchSize m.prec ≤ m.rem := by
      rcases Nat.lt_or_ge m.rem (batchSize m.prec) with h | h
      · rw [Nat.div_eq_of_lt h] at hq; omega
      · exact h
    have e1 : microWith P m = { m with ctl := .adv, inTail := false } := by
      rw [microWith, hc]; simp only [microBulk, hl, hle, if_true]
    have e2 : microWith P { m with ctl := .adv, inTail := false } = { m with core := { m.core with x := stateAfter m.core.x m.core.a 1 }, ctl := .ext, inTail := false } := by
      rw [microWith]; simp only [microAdv, advance_eq hx ha]
    have e3 : microWith P { m with core := { m.core with x := stateAfter m.core.x m.core.a 1 }, ctl := .ext, inTail := false } =
       { m with core := { m.core with x := stateAfter m.core.x m.core.a 1 }, ctl := .bulk, inTail := false, batch := extractOf m.prec (stateAfter m.core.x m.core.a 1) } := by
      rw [microWith]; simp [microExt]
    have hdel := reach_deliver (P := P) (extractOf m.prec (stateAfter m.core.x m.core.a 1)) { m with core := { m.core with x := stateAfter m.core.x m.core.a 1 }, ctl := .bulk, inTail := false, batch := extractOf m.prec (stateAfter m.core.x m.core.a 1) } hb (.inl rfl) rfl
    dsimp only at hdel
    rw [extract_len] at hdel
    obtain ⟨it, hI⟩ := ih { m with core := coreOut m.o (extractOf m.prec (stateAfter m.core.x m.core.a 1)) { m.core with x := stateAfter m.core.x m.core.a 1 }, batch := [], ctl := .bulk, inTail := false, o := m.o + batchSize m.prec, rem := m.rem - batchSize m.prec } hb rfl rfl
      (by dsimp only; rw [← Nat.sub_eq_of_eq_add hq]; rw [Nat.sub_eq_of_eq_add hq]; rw [Nat.div_eq_sub_div hB hle] at hq; omega) (stateAfter_isResidue _ _ _) ha hB
    refine ⟨it, Reach.step ⟨hb, by rw [hc]; decide, by rw [hc]; decide⟩ ?_⟩
    rw [e1]
    refine Reach.step ⟨hb, (by simp), (by simp)⟩ ?_
    rw [e2]
    refine Reach.step ⟨hb, (by simp), (by simp)⟩ ?_
    rw [e3]
    refine Reach.trans hdel ?_
    dsimp only [coreOut] at hI
    rw [stateAfter_add, ← Nat.mod_eq_sub_mod hle] at hI
    have e4 := owf_append m.o (extractOf m.prec (stateAfter m.core.x m.core.a 1)) (batchesOf m.prec (stateAfter m.core.x m.core.a 1) m.core.a q)
    rw [extract_len] at e4
    rw [List.append_assoc, ← e4, ← batchesOf_succ, Nat.add_comm 1 q, show m.o + batchSize m.prec + q * batchSize m.prec = m.o + (q + 1) * batchSize m.prec by rw [Nat.succ_mul]; omega] at hI
    have hE : ({ m with batch := [] } : Micro) = m := by cases m; simp at hl; subst hl; rfl
    rw [← hl] at hI
    rw [← hl]
    exact hI

/-- BULK with elements left, on registers that are no residues: the first draw is refused (R185, R187). -/
theorem ends_refused (m : Micro) (hb : m.core.busy = true) (hc : m.ctl = .bulk) (hl : m.batch = []) (h0 : 0 < m.rem)
    (hr : ¬(isResidue m.core.x = true ∧ isResidue m.core.a = true)) : Ends P m (raiseMulmod m.core) := by
  have hadv : advance m.core.x m.core.a = none := mulMod_eq_none hr
  refine ends_step ⟨hb, by rw [hc]; decide, by rw [hc]; decide⟩ ?_
  by_cases hle : batchSize m.prec ≤ m.rem
  · have e1 : microWith P m = { m with ctl := .adv, inTail := false } := by
      rw [microWith, hc]; simp only [microBulk, hl, hle, if_true]
    rw [e1]
    refine ends_step ⟨hb, (by simp), (by simp)⟩ ?_
    have e2 : microWith P { m with ctl := .adv, inTail := false } = microFault (raiseMulmod m.core) { m with ctl := .adv, inTail := false } := by
      rw [microWith]; simp only [microAdv, hadv]
    rw [e2]; exact ends_fault _ _ rfl
  · have e1 : microWith P m = { m with ctl := .tail } := by
      rw [microWith, hc]; simp only [microBulk, hl, hle, if_false]
    rw [e1]
    refine ends_step ⟨hb, (by simp), (by simp)⟩ ?_
    have e1 : microWith P { m with ctl := .tail } = { m with ctl := .adv, inTail := true } := by
      rw [microWith]; simp only [microTail, hl, h0, if_true]
    rw [e1]
    refine ends_step ⟨hb, (by simp), (by simp)⟩ ?_
    have e2 : microWith P { m with ctl := .adv, inTail := true } = microFault (raiseMulmod m.core) { m with ctl := .adv, inTail := true } := by
      rw [microWith]; simp only [microAdv, hadv]
    rw [e2]; exact ends_fault _ _ rfl

end Sys2Proof.Machine
end

