-- ==== Sys2Proof/Laws/Decode.lean ====
section
/-! SUPPORT. The fields of a command word and the word of given fields determine each other. -/

namespace Sys2Proof

theorem fieldsOf_wordOf (f : Fields) : fieldsOf (wordOf f) = f := by
  rw [fieldsOf, wordOf]
  congr 1
  · apply BitVec.eq_of_getLsbD_eq
    intro i hi
    have h0 : ¬128 + i < 64 := by omega
    have h1 : ¬128 + i - 64 < 64 := by omega
    have h2 : 128 + i - 64 - 64 = i := by omega
    simp only [BitVec.getLsbD_extractLsb', BitVec.getLsbD_append, hi, decide_true, Bool.true_and, if_neg h0, if_neg h1, h2]
  · apply BitVec.eq_of_getLsbD_eq
    intro i hi
    have h0 : ¬64 + i < 64 := by omega
    have h2 : 64 + i - 64 = i := by omega
    simp only [BitVec.getLsbD_extractLsb', BitVec.getLsbD_append, hi, decide_true, Bool.true_and, if_neg h0, h2, if_pos]
  · apply BitVec.eq_of_getLsbD_eq
    intro i hi
    simp only [BitVec.getLsbD_extractLsb', BitVec.getLsbD_append, hi, decide_true, Bool.true_and, Nat.zero_add, if_pos]

theorem wordOf_fieldsOf (w : CmdWord) : wordOf (fieldsOf w) = w := by
  apply BitVec.eq_of_getLsbD_eq
  intro i hi
  simp only [fieldsOf, wordOf, BitVec.getLsbD_extractLsb', BitVec.getLsbD_append]
  split_ifs with h0 h1
  · simp [h0]
  · have h2 : 64 + (i - 64) = i := by omega
    simp only [h1, decide_true, Bool.true_and, h2]
  · have h2 : i - 64 - 64 < 8 := by omega
    have h3 : 128 + (i - 64 - 64) = i := by omega
    simp only [h2, decide_true, Bool.true_and, h3]

theorem decode_wordOf (f : Fields) : decode (wordOf f) = decodeFields f := by
  rw [decode, fieldsOf_wordOf]

end Sys2Proof
end

