-- ==== Sys2Proof/Laws/PerInstr.lean ====
section
/-! SUPPORT. Per command, as syntax: it is well-formed, its fields are legal, its opcode is its place in the table, and its word selects its own row (spec/30_encoding.md R62, R64). -/

namespace Sys2Proof.Laws.TableRow

/-- What each command's word is to its own row of the opcode table. -/
def Statement (i : Instr) : Prop :=
  i.wellFormed = true ∧ i.fields.legal = true ∧ opcodeTable[i.fields.op.toNat - 1]? = some i.row ∧
    i.row.selects (encode i) = true

/-- Masking a word masks its fields. -/
theorem wordOf_and (f g : Fields) : wordOf f &&& wordOf g = wordOf ⟨f.op &&& g.op, f.arg1 &&& g.arg1, f.arg0 &&& g.arg0⟩ := by
  apply BitVec.eq_of_getLsbD_eq
  intro i hi
  simp only [wordOf, BitVec.getLsbD_and, BitVec.getLsbD_append]
  split_ifs <;> rfl

/-- A word selects a row when the row's masked fields are its match's. -/
theorem selects_of {r : OpcodeRow} {f m k : Fields} (hm : r.mask = wordOf m) (hk : r.matchBits = wordOf k)
    (h : (⟨f.op &&& m.op, f.arg1 &&& m.arg1, f.arg0 &&& m.arg0⟩ : Fields) = k) : r.selects (wordOf f) = true := by
  rw [OpcodeRow.selects, hm, hk, wordOf_and, h]
  exact decide_eq_true rfl

/-- The mask of the four one-operand commands, in fields. -/
theorem oneOperandMask : (0xFFFFFFFFFFFFFFFFFF0000000000000000 : CmdWord) = wordOf ⟨0xFF, 0xFFFFFFFFFFFFFFFF, 0⟩ := by
  decide +kernel

theorem seed (k p : Operand) : Statement (.seed k p) :=
  ⟨rfl, rfl, rfl, selects_of (m := ⟨0xFF, 0, 0⟩) (k := ⟨0x01, 0, 0⟩) (show (Instr.seed 0 0).row.mask = _ by decide +kernel)
    (show (Instr.seed 0 0).row.matchBits = _ by decide +kernel) (by simp [Instr.fields])⟩

theorem readf (count : Operand) : Statement (.readf count) :=
  ⟨rfl, rfl, rfl, selects_of (k := ⟨0x02, 0, 0⟩) oneOperandMask
    (show (Instr.readf 0).row.matchBits = _ by decide +kernel) (by simp [Instr.fields])⟩

theorem readd (count : Operand) : Statement (.readd count) :=
  ⟨rfl, rfl, rfl, selects_of (k := ⟨0x03, 0, 0⟩) oneOperandMask
    (show (Instr.readd 0).row.matchBits = _ by decide +kernel) (by simp [Instr.fields])⟩

theorem jump (n : Operand) : Statement (.jump n) :=
  ⟨rfl, rfl, rfl, selects_of (k := ⟨0x04, 0, 0⟩) oneOperandMask
    (show (Instr.jump 0).row.matchBits = _ by decide +kernel) (by simp [Instr.fields])⟩

theorem setskip (n : Operand) : Statement (.setskip n) :=
  ⟨rfl, rfl, rfl, selects_of (k := ⟨0x05, 0, 0⟩) oneOperandMask
    (show (Instr.setskip 0).row.matchBits = _ by decide +kernel) (by simp [Instr.fields])⟩

theorem selprim : Statement .selprim := by
  unfold Statement
  decide +kernel

end Sys2Proof.Laws.TableRow
end

