-- ==== Sys2Proof/Laws/Step.lean ====
section
/-! SUPPORT. All that one command and one step can do. -/

namespace Sys2Proof.Machine

open Sys2Proof.Safety

/-- `exec` is the core with its own parameters. -/
theorem exec_eq_execWith (i : Instr) (s : State) : exec i s = execWith Config.params i s := by
  cases i <;> rfl

theorem step_eq_stepWith (s : State) : step s = stepWith Config.params s := by
  have h : exec = execWith Config.params := funext fun i => funext fun s => exec_eq_execWith i s
  rw [step, stepWith, h]

/-- All a step can do, whatever a command does: idle, be reset, turn a word away, fault on an illegal word, or run a
command (R40, R183, R196, R200). -/
theorem stepBy_cases {run : Instr → State → Result} {s t : State} (h : stepBy run s = .next t) :
    (s.host = [] ∧ t = s) ∨
    (∃ rest, s.host = .reset :: rest ∧ t = resetCore { s with host := rest }) ∨
    (∃ w rest, s.host = .present w :: rest ∧ portOpen s = false ∧ t = { s with host := rest }) ∨
    (∃ w rest e, s.host = .present w :: rest ∧ portOpen s = true ∧ decode w = .error e ∧
      t = raiseFault .illegalCommand (accept { s with host := rest })) ∨
    (∃ w rest i, s.host = .present w :: rest ∧ portOpen s = true ∧ decode w = .ok i ∧
      run i (accept { s with host := rest }) = .next t) := by
  rw [stepBy] at h
  split at h
  · next h0 => exact .inl ⟨h0, (Host.Outcome.next.inj h).symm⟩
  · next rest h0 => exact .inr (.inl ⟨rest, h0, (Host.Outcome.next.inj h).symm⟩)
  · next w rest h0 =>
    have hp : portOpen { s with host := rest } = portOpen s := rfl
    rw [presentWord, hp] at h
    by_cases ho : portOpen s = true
    · rw [if_pos ho, runWord] at h
      split at h
      · next i hi => exact .inr (.inr (.inr (.inr ⟨w, rest, i, h0, ho, hi, h⟩)))
      · next e he => exact .inr (.inr (.inr (.inl ⟨w, rest, e, h0, ho, he, (Host.Outcome.next.inj h).symm⟩)))
    · rw [if_neg ho] at h
      exact .inr (.inr (.inl ⟨w, rest, h0, Bool.eq_false_iff.mpr ho, (Host.Outcome.next.inj h).symm⟩))

/-- All a step of the core can do (R40, R183, R196, R200). -/
theorem step_cases {s t : State} (h : step s = .next t) :
    (s.host = [] ∧ t = s) ∨
    (∃ rest, s.host = .reset :: rest ∧ t = resetCore { s with host := rest }) ∨
    (∃ w rest, s.host = .present w :: rest ∧ portOpen s = false ∧ t = { s with host := rest }) ∨
    (∃ w rest e, s.host = .present w :: rest ∧ portOpen s = true ∧ decode w = .error e ∧
      t = raiseFault .illegalCommand (accept { s with host := rest })) ∨
    (∃ w rest i, s.host = .present w :: rest ∧ portOpen s = true ∧ decode w = .ok i ∧
      exec i (accept { s with host := rest }) = .next t) :=
  stepBy_cases h

/-- The check that guards every command but SEED (R184). -/
theorem whenSeeded_cases {s t : State} {k : Result} (h : whenSeeded s k = .next t) :
    (s.seeded = true ∧ k = .next t) ∨ (s.seeded = false ∧ t = raiseFault .notSeeded s) := by
  rw [whenSeeded] at h
  by_cases hs : s.seeded = true
  · rw [if_pos hs] at h
    exact .inl ⟨hs, h⟩
  · rw [if_neg hs] at h
    exact .inr ⟨Bool.eq_false_iff.mpr hs, (Host.Outcome.next.inj h).symm⟩

end Sys2Proof.Machine
end

