-- ==== Sys2Proof/Tests/Slice0.lean ====
section
/-! SUPPORT. The model's own tests. Expected values are the spec's (spec/95_test_vectors.md, spec/30_encoding.md R69), or follow from a rule by hand. After them, for every obligation with hypotheses, a witness: concrete inputs that meet all of them. -/

namespace Sys2Proof.Tests

open Sys2Proof.Machine Sys2Proof.Safety

/-! ### The smoke test of WellFormed.lean: for each check, fields it refuses -/

theorem test_opcode_zero_refused : Fields.opcodeLegal ⟨0x00, 0, 0⟩ = false := by decide

theorem test_opcode_seven_refused : Fields.opcodeLegal ⟨0x07, 0, 0⟩ = false := by decide

theorem test_readf_arg1_refused : Fields.arg1Legal ⟨0x02, 1, 0x18⟩ = false := by decide

theorem test_selprim_arg0_refused : Fields.arg0Legal ⟨0x06, 0, 1⟩ = false := by decide

theorem test_legal_refuses_each :
    [Fields.legal ⟨0x00, 0, 0⟩, Fields.legal ⟨0xFF, 0, 0⟩, Fields.legal ⟨0x02, 1, 0x18⟩, Fields.legal ⟨0x06, 0, 1⟩,
      Fields.legal ⟨0x01, 0xFFFFFFFFFFFFFFFF, 0xFFFFFFFFFFFFFFFF⟩, Fields.legal ⟨0x06, 0, 0⟩]
      = [false, false, false, false, true, true] := by decide

/-! ### Decoding: the words of R69 and of N1 to N14, and each command's word assembled bit by bit from R60 -/

/-- R60, R62: opcode `00000001`, then `p = 2048` (bit 11 of `arg1`), then `seed = 1`. -/
theorem test_seed_word :
    decode (0b00000001#8 ++ (0#52 ++ 0b1#1 ++ 0#11) ++ (0#63 ++ 0b1#1)) = .ok (.seed 1 2048) := by decide +kernel

/-- Opcode `00000010`, `arg1` all zero, `count = 24 = 0b11000`. -/
theorem test_readf_word : decode (0b00000010#8 ++ 0#64 ++ (0#59 ++ 0b11000#5)) = .ok (.readf 24) := by decide +kernel

/-- Opcode `00000011`, `arg1` all zero, `count = 11 = 0b1011`. -/
theorem test_readd_word : decode (0b00000011#8 ++ 0#64 ++ (0#60 ++ 0b1011#4)) = .ok (.readd 11) := by decide +kernel

/-- Opcode `00000100`, `arg1` all zero, `n = 2^63`, the top bit of `arg0`. -/
theorem test_jump_word : decode (0b00000100#8 ++ 0#64 ++ (0b1#1 ++ 0#63)) = .ok (.jump (BitVec.ofNat 64 (2 ^ 63))) := by
  decide +kernel

/-- Opcode `00000101`, `arg1` all zero, `n = 2048`. -/
theorem test_setskip_word : decode (0b00000101#8 ++ 0#64 ++ (0#52 ++ 0b1#1 ++ 0#11)) = .ok (.setskip 2048) := by
  decide +kernel

/-- Opcode `00000110`, both operand fields all zero. -/
theorem test_selprim_word : decode (0b00000110#8 ++ 0#64 ++ 0#64) = .ok .selprim := by decide +kernel

/-- N3: every bit of both operands set. -/
theorem test_seed_all_ones :
    decode 0x01FFFFFFFFFFFFFFFFFFFFFFFFFFFFFFFF = .ok (.seed 0xFFFFFFFFFFFFFFFF 0xFFFFFFFFFFFFFFFF) := by
  decide +kernel

/-- N6, N11, N12, N13, N14: the illegal words, by name. -/
theorem test_illegal_words :
    decode 0x0200000000000000010000000000000018 = .error (.reserved 0x02) ∧
    decode 0x0600000000000000000000000000000001 = .error (.reserved 0x06) ∧
    decode 0x0000000000000000000000000000000000 = .error (.opcode 0x00) ∧
    decode 0x0700000000000000000000000000000000 = .error (.opcode 0x07) ∧
    decode 0xFF00000000000000000000000000000000 = .error (.opcode 0xFF) := by decide +kernel

/-- N9 as the opcode table numbers its bits. -/
theorem test_decodeTableWord : decodeTableWord 136 0x0500000000000000000000000000000800 = some (.setskip 2048) := by
  decide +kernel

/-- R67: the assembler text of a command with two operands. -/
theorem test_assembly : (Instr.seed 1 2048).assembly = "SEED 1, 2048" := by decide +kernel

/-! ### The engines: vectors M6, M8, M9, P-5, P-12, P-13, E2, E5 -/

/-- The residue `V` of spec/95_test_vectors.md. -/
def stateV : Word576 :=
  0x7FFFFFFFFFFFFFFF0BADF00D8BADF00DDEADBEEFCAFEBABE99AABBCCDDEEFF0011223344556677888796A5B4C3D2E1F00F1E2D3C4B5A6978FEDCBA98765432100123456789ABCDEF

theorem test_mulMod_M6 : mulMod stateV 3 = some
    0x7FFFFFFFFFFFFFFD2309D028A309D0299C093CCF60FC303BCD00336699CCFD00336699CD0033669996C4F11E4B78A5D02D5A87B4E20F3C6AFC962FC962FC96300369D0369D0369CC := by
  decide +kernel

theorem test_mulMod_M8 : mulMod stateV stateV = some
    0xDA3AFDC6E2688695F2A4361F5DD3948A647CC6BB86859CE27F2C99936DCE2CA3C8CF6CECF1862A135BD77BD1E49E8350A857D9368805125AAF7CB34FD613BAFC259ABEE9B1CA34D0 := by
  decide +kernel

theorem test_mulMod_M9 : mulMod (BitVec.ofNat 576 modulus) residueOne = none := by decide +kernel

theorem test_powMod_P5 : powMod 3 5 = some 243 ∧ (powRequests 3 5).length = 3 := by decide +kernel

theorem test_powMod_P13 : powMod stateV 0xDEADBEEF = some
    0xB2F33D1BC853A18BDFCABB0F31EB4DAC3E03DF805B85456B07CEB67064332551B58B48A81712EC5C910DFC6686D7BC8716BF9FEB8C3B1C58D461A5E4B5778BA7EE271EC7EB7F63C3 := by
  decide +kernel

theorem test_extractF_E2 : (extractF stateV).toList =
    [0x3F2BCDEF, 0x3E8ACF12, 0x3D800918, 0x3EECA864, 0x3F5CBA98, 0x3ED2F1FC, 0x3E712D68, 0x3D71E2D0, 0x3F52E1F0,
    0x3F25B4C3, 0x3F088796, 0x3EAACCEE, 0x3E08CD10, 0x3F7F0011, 0x3F4CDDEE, 0x3F19AABB, 0x3F7EBABE, 0x3F3EEFCA,
    0x3D5DEAD0, 0x3F0BADF0, 0x3F2DF00D, 0x3F7FFF0B, 0x3F7FFFFF, 0x3EFFFFFE] := by
  decide +kernel

theorem test_extractD_E5 : (extractD stateV).toList =
    [0x3FCA2B3C4D5E6F78, 0x3FE30ECA86420024, 0x3FE6B4D2F1FDB974, 0x3FEC3E01E3C5A788, 0x3FE10F2D4B6987A4,
    0x3FC119A22AB33BC0, 0x3FE799BBDDFE0022, 0x3FE95FD757D33556, 0x3FEBE01BBD5B7DDE, 0x3FEFE175BE01B174,
    0x3FEFFFFFFFFFFFFE] := by
  decide +kernel

/-! ### One step of each command, on cores with the toy parameters the vectors name -/

/-- A core with this `A_BASE`, and JUMP_RESETS_CURSORS at its default (R13). -/
def toy (a : Fin modulus) : Params := { aBase := a }

/-- A core with this `A_BASE` instantiated to reset the cursors at a JUMP. -/
def resettingToy (a : Fin modulus) : Params := { aBase := a, jumpResetsCursors := true }

/-- R13: the default is false, of any instance and of the core that `exec` and `step` run. -/
theorem test_default_leaves_cursors (a : Fin modulus) :
    (toy a).jumpResetsCursors = false ∧ Config.params.jumpResetsCursors = false := ⟨rfl, rfl⟩

/-- The `A_BASE` of K4. -/
def agk : Fin modulus :=
  ⟨0xFFFFFEFFFFFFFFFFFFFFFFFFFFFFFFFFFFFFFFFFFFFFFFFFFFFFFFFFFFFFFFFFFFFFFFFFFFFFFFFFFFFF000001000000000000000000000000000000000000000000000000000001,
    by decide +kernel⟩

/-- A seeded core with these registers and cursors, and nothing in its buffers but 0. -/
def seededCore (x a : Word576) (c : Fin 25) (d : Fin 12) : State :=
  { State.reset with x := x, a := a, fcur := c, dcur := d, seeded := true }

/-- The state a step answers. -/
def answered (r : Result) : Option State :=
  match r with
  | .next t => some t
  | .fault _ => none
  | .refused _ => none

/-- The state after the word has been presented to an idle core. -/
def afterWord (P : Params) (w : CmdWord) (s : State) : Option State := answered (stepWith P (queueWord w s))

/-- K2: `SEED 2, 5` with `A_BASE = 3`. -/
theorem test_seed_K2 :
    (afterWord (toy ⟨3, by decide +kernel⟩) 0x0100000000000000050000000000000002 State.reset).map
      (fun t => (t.a, t.x, t.fcur, t.dcur, t.seeded, t.busy)) = some (243,
    0x68CC7A772C720031248BD2689C0B63B157E72E32701A68B6F81C3F0B8188DA895BC8EAB446CA0779829C2189CA8DDFDD4299592BD0AF0E804516AFE002B6C0052D182D0F629897F1,
    24, 11, true, false) := by decide +kernel

/-- K4: `SEED 1, 2048` with `A_BASE = AGK`, on a core already seeded with leftover values. -/
theorem test_seed_K4 :
    (afterWord (toy agk) 0x0100000000000008000000000000000001 (seededCore 7 9 3 4)).map
      (fun t => (t.a, t.x, t.fcur, t.dcur)) = some (
    0xB48C187CF5B22097492EDFCC0CC8E753FF74E54107684ED2256C3D3C662EA36C20B2CA60CB78C5096D8A15A13BEE7CB0E64DCB31C48228EC4CEC2C78AF55C101ED7FAA90747AAAD9,
    0xF671BBCEE85222AB2624A1B9EF2C42C0AD4191BCF0926C6BD644D1BD1837C7371164275F61142884D697D9321E8373B1E9D460859F0659B6024D94E3C4B490E89F1C67142C84C502,
    24, 11) := by decide +kernel

/-- P2, its first READF: a tail of 5 from `X = 2^264 - 2^24`, `A = 2`. -/
theorem test_readf_P2_tail :
    (afterWord (toy ⟨2, by decide +kernel⟩) 0x0200000000000000000000000000000005
        (seededCore (BitVec.ofNat 576 (2 ^ 264 - 2 ^ 24)) 2 24 11)).map
      (fun t => (t.out, t.x, t.fcur, t.fbuf.toList.drop 5)) = some
    ([⟨0, .single 0x00000000⟩, ⟨1, .single 0x3F7FFFFE⟩, ⟨2, .single 0x3F7FFFFF⟩, ⟨3, .single 0x3F7FFFFF⟩, ⟨4, .single 0x3F7FFFFF⟩],
      BitVec.ofNat 576 (2 ^ 265 - 2 ^ 25), 5,
      List.replicate 6 0x3F7FFFFF ++ [0x33800000] ++ List.replicate 12 0) := by decide +kernel

/-- P2, its second READF: drain 19 of the old batch, then a tail of 1. -/
theorem test_readf_P2_drain :
    (afterWord (toy ⟨2, by decide +kernel⟩) 0x0200000000000000000000000000000014
        { seededCore (BitVec.ofNat 576 (2 ^ 266 - 2 ^ 26)) 2 5 3 with
          fbuf := extractF (BitVec.ofNat 576 (2 ^ 265 - 2 ^ 25)) }).map
      (fun t => (elems t.out, t.x, t.fcur, t.fbuf.toList.take 2)) = some
    (List.replicate 6 (.single 0x3F7FFFFF) ++ [.single 0x33800000] ++ List.replicate 12 (.single 0) ++ [.single 0],
      BitVec.ofNat 576 (2 ^ 267 - 2 ^ 27), 1, [0, 0x3F7FFFF8]) := by decide +kernel

/-- P2, its READD: a tail of 3 from `X = 2^265 - 2^25`. -/
theorem test_readd_P2_tail :
    (afterWord (toy ⟨2, by decide +kernel⟩) 0x0300000000000000000000000000000003
        (seededCore (BitVec.ofNat 576 (2 ^ 265 - 2 ^ 25)) 2 5 11)).map
      (fun t => (elems t.out, t.x, t.fcur, t.dcur, t.dbuf.toList.drop 3)) = some
    ([.double 0x3FEFFFFFF8000000, .double 0x3FEFFFFFFFFFFFFE, .double 0x3FEFFFFFFFFFFFFE],
      BitVec.ofNat 576 (2 ^ 266 - 2 ^ 26), 5, 3,
      [0x3FEFFFFFFFFFFFFE, 0x3FEFFFFFFFFFFFFE, 0x3D0F800000000000, 0, 0, 0, 0, 0]) := by decide +kernel

/-- P3, run (a), its `READD 20`: drain 7 of `X1`'s batch, one whole batch, a tail of 2. -/
theorem test_readd_P3_drain_bulk_tail :
    (afterWord (toy ⟨3, by decide +kernel⟩) 0x0300000000000000000000000000000014
        { seededCore 0x7A183F1F30362EA5B0B8B94C1ECFA1567070D9E0691165AD82CFD7EBF4E770621FB6C91F31C51856FA96D5CB44AB7F06378FA497162AC3C19488F1A2937844E9CDF2C59A96D83960
            243 24 4 with
          dbuf := extractD 0x7A183F1F30362EA5B0B8B94C1ECFA1567070D9E0691165AD82CFD7EBF4E770621FB6C91F31C51856FA96D5CB44AB7F06378FA497162AC3C19488F1A2937844E9CDF2C59A96D83960 }).map
      (fun t => (elems t.out, t.x, t.dcur)) = some
    ([.double 0x3FDBEA5B572D12AC, .double 0x3FE6D923E638A30A, .double 0x3FDFAFD39DC1887C, .double 0x3FDA44596B60B3F4,
      .double 0x3FEF42ACE0E1B3C0, .double 0x3FE4B617172983D8, .double 0x3FE4307E3E606C5C, .double
      0x3FB91BD2F3E75AD0, .double 0x3FD47ECA5A7B9F5C, .double 0x3FE52FA17FFBFABA, .double 0x3FE25CD7AB276D40,
      .double 0x3FEFBB3FDFE45D92, .double 0x3FE01D1387C2C350, .double 0x3FD3E5DEBEB49068, .double
      0x3FE770707665693E, .double 0x3FD89432EC7B400C, .double 0x3FD1AFD5F8D04FC4, .double 0x3FD40FAA6B0DB91C,
      .double 0x3FEAAD27B09364BC, .double 0x3FEA2D09F1AC2258],
      0x62B7B0E781ADA827A06CB6EEE2052B159E3F738AFDD60312173388CC9BC15945285CCC4EEEFB368F5FA9C2E269567105BBB365A80E1B263E177F94D1684F8D6112CD5693D849B25E,
      2) := by decide +kernel

/-- K7: `JUMP 600` from `ONE` with `A_BASE = 2`; the multiplier `A = 5` plays no part. -/
theorem test_jump_K7 :
    (afterWord (toy ⟨2, by decide +kernel⟩) 0x0400000000000000000000000000000258 (seededCore 1 5 7 3)).map
      (fun t => (t.x, t.a, t.fcur, t.dcur)) = some (BitVec.ofNat 576 (2 ^ 264 - 2 ^ 24), 5, 7, 3) := by
  decide +kernel

/-- P4: `JUMP 24` on a core instantiated to reset the cursors. -/
theorem test_jump_P4_resets :
    (afterWord (resettingToy ⟨2, by decide +kernel⟩) 0x0400000000000000000000000000000018
        (seededCore 2 2 1 11)).map
      (fun t => (t.x, t.fcur, t.dcur)) = some (BitVec.ofNat 576 (2 ^ 25), 24, 11) := by decide +kernel

/-- K4, its last line: `SETSKIP 1` gives `A = AGK` and leaves the leftover values. -/
theorem test_setskip_K4 :
    (afterWord (toy agk) 0x0500000000000000000000000000000001 (seededCore 7 9 3 4)).map
      (fun t => (t.a.toNat, t.x, t.fcur, t.dcur)) = some (agk.val, 7, 3, 4) := by decide +kernel

/-- K6: `SELPRIM` with `A_BASE = 2`. -/
theorem test_selprim_K6 :
    (afterWord (toy ⟨2, by decide +kernel⟩) 0x0600000000000000000000000000000000 (seededCore 7 9 3 4)).map
      (fun t => (t.a, t.x)) = some (
    0x0002FFFFFFFFFFFFFFFFFFFFFFFC000000000000000000000000FFFFFFFFFFFF000000000000000000000002FFFFFFFFFFFFFFFFFFFFFFFF0000000000000000000000000000000D,
    7) := by decide +kernel

/-- K4: `SELPRIM` with `A_BASE = AGK`. -/
theorem test_selprim_K4 :
    (afterWord (toy agk) 0x0600000000000000000000000000000000 (seededCore 7 9 3 4)).map State.a = some
    0xB48C187CF5B22097492EDFCC0CC8E753FF74E54107684ED2256C3D3C662EA36C20B2CA60CB78C5096D8A15A13BEE7CB0E64DCB31C48228EC4CEC2C78AF55C101ED7FAA90747AAAE6 := by
  decide +kernel

/-! ### Ports and faults: F-1, F-5, F-6, F-7, reset, the status word -/

/-- F-1: the first word after reset is `READF 1`. -/
theorem test_fault_not_seeded :
    answered (step (State.reset.withFetchWord 136 0x0200000000000000000000000000000001))
      = some { State.reset with fault := true, faultCode := .notSeeded } := by decide +kernel

/-- F-5: the all-zero word on an unseeded core: legality is checked first. -/
theorem test_fault_illegal :
    answered (step (State.reset.withFetchWord 136 0)) = some { State.reset with fault := true, faultCode := .illegalCommand } := by
  decide +kernel

/-- F-6: `READF` with `arg1 = 1` on a seeded core. -/
theorem test_fault_illegal_seeded :
    afterWord (toy agk) 0x0200000000000000010000000000000018 (seededCore 7 9 3 4)
      = some { seededCore 7 9 3 4 with fault := true, faultCode := .illegalCommand } := by decide +kernel

/-- R185: a draw from a state that is no residue; the one leftover value has been delivered. -/
theorem test_fault_precondition :
    (afterWord (toy agk) 0x0200000000000000000000000000000002 (seededCore (BitVec.ofNat 576 modulus) 9 23 4)).map
      (fun t => (t.fault, t.faultCode, t.busy, t.out, t.freeCount))
      = some (true, .mulmodPrecondition, false, [⟨0, .single 0⟩], 1) := by decide +kernel

/-- F-7: a faulted core accepts no word. -/
theorem test_faulted_turns_away :
    afterWord (toy agk) 0x0100000000000000010000000000000001 { State.reset with fault := true, faultCode := .notSeeded }
      = some { State.reset with fault := true, faultCode := .notSeeded } := by decide +kernel

/-- R200: reset leaves a fault, and what was delivered stays delivered. -/
theorem test_reset_leaves_fault :
    answered (step { State.reset with fault := true, faultCode := .illegalCommand, host := [.reset], out := [⟨0, .single 1⟩] })
      = some { State.reset with out := [⟨0, .single 1⟩] } := by decide +kernel

/-- F-4: `SEED 0, 0` is the first command after reset, and `step` runs it. -/
theorem test_fetch_seed :
    (answered (step (State.reset.withFetchWord 136 0x0100000000000000000000000000000000))).map
      (fun t => (t.seeded, t.fault, t.a, t.x)) = some (true, false, 1, 1) := by decide +kernel

/-- R30: FAULT_CODE 1 in bits 4:3, FAULT in bit 2, SEEDED in bit 1, BUSY in bit 0. -/
theorem test_statusWord :
    statusWord { State.reset with seeded := true, fault := true, faultCode := .illegalCommand } = 0b00001110 := by decide

/-! ### Witnesses: for every obligation with hypotheses, inputs that meet all of them together -/

/-- A seeded core of residues with no leftover values. -/
def emptyCore : State := seededCore 3 5 24 11

/-- A seeded core of residues with leftover values: 23 single, 1 double. -/
def leftoverCore : State := seededCore 3 5 1 10

/-- A seeded core whose `X` is no residue, with leftover values. -/
def spoiltCore : State := seededCore (BitVec.ofNat 576 modulus) 5 1 10

/-- SEED answers in every state (R161), with whatever `A_BASE`. -/
theorem seed_answers (k p : Operand) (s : State) : ∃ t, exec (.seed k p) s = .next t := by
  rw [exec, execSeed, seedWith, seedRegs_eq]
  exact ⟨_, rfl⟩

/-- SELPRIM answers on a seeded core (R169), with whatever `A_BASE`. -/
theorem selprim_answers (s : State) (h : s.seeded = true) : ∃ t, exec .selprim s = .next t := by
  rw [exec, execSelprim, selPrimWith, whenSeeded, if_pos h, powMod_base]
  exact ⟨_, rfl⟩

/-- A result that `answered` shows is a next state. -/
theorem next_of_answered {r : Result} {f : State → Bool} (h : (answered r).any f = true) :
    ∃ t, r = .next t ∧ f t = true := by
  cases r with
  | next t => exact ⟨t, rfl, h⟩
  | fault e => cases h
  | refused e => cases h

theorem witness_EncodeOfDecode : decode 0x0600000000000000000000000000000000 = .ok .selprim := by decide +kernel

/-- Each clause of R64 at the edge of its range, and the legal words beside it. -/
theorem witness_IllegalWordsExactly :
    [decoded 0x00FFFFFFFFFFFFFFFFFFFFFFFFFFFFFFFF, decoded 0x0700000000000000000000000000000000,
      decoded 0x0500000000000000010000000000000000, decoded 0x0680000000000000000000000000000000,
      decoded 0x0600000000000000008000000000000000] = [none, none, none, none, none] ∧
    [decoded 0x0180000000000000000000000000000000, decoded 0x0500000000000000008000000000000000,
      decoded 0x0600000000000000000000000000000000].all Option.isSome = true := by decide +kernel

theorem witness_MulModContract :
    (BitVec.ofNat 576 (modulus - 1)).toNat < 2 ^ 576 - 2 ^ 240 + 1 ∧ (0 : Word576).toNat < 2 ^ 576 - 2 ^ 240 + 1 := by
  decide +kernel

theorem witness_MulModLaws :
    mulMod 3 5 = some 15 ∧ isResidue 3 = true ∧ isResidue stateV = true ∧ isResidue (BitVec.ofNat 576 (modulus - 1)) = true ∧
    isResidue (BitVec.ofNat 576 modulus) = false := by decide +kernel

theorem witness_PowModIsModularPower : isResidue (BitVec.ofNat 576 (modulus - 1)) = true := by decide +kernel

theorem witness_PowModLaws :
    (1 : Operand) ≠ 0 ∧ isResidue stateV = true ∧ isResidue 3 = true ∧ 63 ≤ 63 ∧
    (powRequests 3 (BitVec.ofNat 64 (2 ^ 63))).length = 63 ∧ (3, 3) ∈ powRequests 3 (BitVec.ofNat 64 (2 ^ 63)) ∧
    powRequests 3 (BitVec.ofNat 64 (2 ^ 2)) = [(3, 3), (9, 9)] := by
  decide +kernel

/-- Registers that are residues, with a request made; and a seeded core where a request is refused, and one where none is. -/
theorem witness_RequestsAreResidues :
    (isResidue leftoverCore.x = true ∧ isResidue leftoverCore.a = true ∧ (3, 5) ∈ requests (toy agk) leftoverCore (.readf 24)) ∧
    (spoiltCore.seeded = true ∧ spoiltCore.faultCode ≠ .mulmodPrecondition ∧
      (answered (exec (.readf 24) spoiltCore)).map State.faultCode = some .mulmodPrecondition) ∧
    leftoverCore.seeded = true ∧ leftoverCore.faultCode ≠ .mulmodPrecondition ∧
      (answered (exec (.readf 24) leftoverCore)).map State.faultCode = some .none := by decide +kernel

theorem witness_AdvanceStep : isResidue stateV = true ∧ isResidue (BitVec.ofNat 576 (modulus - 1)) = true := by
  decide +kernel

theorem witness_DrawsClosedForm : isResidue stateV = true ∧ isResidue 2 = true := by decide +kernel

theorem witness_BatchElements : 0 < 24 ∧ 23 < 24 ∧ 10 < 11 := by decide

theorem witness_SingleFieldLimbs : 0 < 3 ∧ 2 < 3 := by decide

theorem witness_SinglePatternRange : f32bits 0xFFFFFF = 0x3F7FFFFF := by decide +kernel

theorem witness_DoublePatternRange : f64bits 0xFFFFFFFFFFFFF = 0x3FEFFFFFFFFFFFFE := by decide +kernel

/-- Two states that differ only above bit 571 have the same double-precision batch. -/
theorem witness_BatchDeterminesState :
    extractF stateV = extractF stateV ∧ extractD 0 = extractD (BitVec.ofNat 576 (2 ^ 572)) ∧
    extractF 0 ≠ extractF (BitVec.ofNat 576 (2 ^ 572)) := by decide +kernel

theorem witness_ReadfResult :
    leftoverCore.seeded = true ∧ isResidue leftoverCore.x = true ∧ isResidue leftoverCore.a = true := by decide +kernel

theorem witness_ReaddResult :
    emptyCore.seeded = true ∧ isResidue emptyCore.x = true ∧ isResidue emptyCore.a = true := by decide +kernel

/-- Exactly all leftover values of either buffer. -/
theorem witness_ReadFromBuffer :
    leftoverCore.seeded = true ∧ (23 : Operand).toNat ≤ 24 - leftoverCore.fcur.val ∧
    (1 : Operand).toNat ≤ 11 - leftoverCore.dcur.val := by decide +kernel

/-- Both readers, and both values of SEEDED. -/
theorem witness_ReadOfZero :
    portOpen (queueWord 0x0200000000000000000000000000000000 leftoverCore) = true ∧
    decode 0x0200000000000000000000000000000000 = .ok (.readf 0) ∧
    portOpen (queueWord 0x0300000000000000000000000000000000 State.reset) = true ∧
    decode 0x0300000000000000000000000000000000 = .ok (.readd 0) ∧
    leftoverCore.seeded = true ∧ State.reset.seeded = false := by decide +kernel

theorem witness_OutWriteIndices :
    leftoverCore.seeded = true ∧ isResidue leftoverCore.x = true ∧ isResidue leftoverCore.a = true ∧
    (answered (execWith (toy agk) (.seed 1 1) leftoverCore)).isSome = true ∧
    (answered (execWith (resettingToy agk) (.jump 5) leftoverCore)).isSome = true := by decide +kernel

/-- The largest sum that is allowed. -/
theorem witness_ReadfBatching :
    leftoverCore.seeded = true ∧ isResidue leftoverCore.x = true ∧ isResidue leftoverCore.a = true ∧
    (0xFFFFFFFFFFFFFFFE : Operand).toNat + (1 : Operand).toNat < 2 ^ 64 := by decide +kernel

theorem witness_ReaddBatching :
    emptyCore.seeded = true ∧ isResidue emptyCore.x = true ∧ isResidue emptyCore.a = true ∧
    (4 : Operand).toNat + (20 : Operand).toNat < 2 ^ 64 := by decide +kernel

theorem witness_ReadersBufferSeparately :
    leftoverCore.seeded = true ∧ isResidue leftoverCore.x = true ∧ isResidue leftoverCore.a = true ∧
    (23 : Operand).toNat ≤ 24 - leftoverCore.fcur.val ∧ (1 : Operand).toNat ≤ 11 - leftoverCore.dcur.val := by
  decide +kernel

/-- One element more than is left over. -/
theorem witness_RefusedRequestFaults :
    spoiltCore.seeded = true ∧ ¬(isResidue spoiltCore.x = true ∧ isResidue spoiltCore.a = true) ∧
    isResidue spoiltCore.x = false ∧ 24 - spoiltCore.fcur.val < (24 : Operand).toNat ∧
    11 - spoiltCore.dcur.val < (2 : Operand).toNat := by decide +kernel

/-- Each clause: `SEED 0, p`; `SEED k, 0`; `SEED k, 1`; neighbouring seeds, up to the last pair. -/
theorem witness_SeedCornerCases :
    (∃ t, exec (.seed 0 5) State.reset = .next t) ∧ (∃ t, exec (.seed 5 0) State.reset = .next t) ∧
    (∃ t, exec (.seed 5 1) State.reset = .next t) ∧
    (0xFFFFFFFFFFFFFFFE : Operand).toNat + 1 < 2 ^ 64 ∧ (∃ t, exec (.seed 0xFFFFFFFFFFFFFFFE 1) State.reset = .next t) ∧
    ∃ t, exec (.seed (0xFFFFFFFFFFFFFFFE + 1) 1) State.reset = .next t :=
  ⟨seed_answers _ _ _, seed_answers _ _ _, seed_answers _ _ _, by decide, seed_answers _ _ _, seed_answers _ _ _⟩

theorem witness_JumpResult : leftoverCore.seeded = true ∧ isResidue leftoverCore.x = true := by decide +kernel

theorem witness_JumpsAdd : emptyCore.seeded = true ∧ isResidue emptyCore.x = true := by decide +kernel

/-- The largest `n` of either precision, on the core that `exec` runs and on one that resets the cursors. -/
theorem witness_JumpEquivalence :
    (let s := { emptyCore with a := Config.params.base }
     s.seeded = true ∧ isResidue s.x = true ∧ s.a = Config.params.base ∧ s.fcur = 24 ∧ s.dcur = 11) ∧
    (let s := { emptyCore with a := (resettingToy agk).base }
     s.seeded = true ∧ isResidue s.x = true ∧ s.a = (resettingToy agk).base ∧ s.fcur = 24 ∧ s.dcur = 11) ∧
    24 * (768614336404564650 : Operand).toNat < 2 ^ 64 ∧ 11 * (1676976733973595601 : Operand).toNat < 2 ^ 64 :=
  ⟨⟨rfl, by decide +kernel, rfl, rfl, rfl⟩, ⟨rfl, by decide +kernel, rfl, rfl, rfl⟩, by decide, by decide⟩

/-- Both settings of the parameter, and all leftover values. -/
theorem witness_StaleBuffers :
    leftoverCore.seeded = true ∧ isResidue leftoverCore.x = true ∧ (23 : Operand).toNat ≤ 24 - leftoverCore.fcur.val ∧
    (toy agk).jumpResetsCursors = false ∧ (resettingToy agk).jumpResetsCursors = true ∧
    (1 : Operand).toNat ≤ 11 - leftoverCore.dcur.val := by
  decide +kernel

theorem witness_SetSkipResult : leftoverCore.seeded = true := rfl

theorem witness_SelPrimResult :
    leftoverCore.seeded = true ∧ (toy ⟨1, by decide +kernel⟩).base = residueOne := by decide +kernel

/-- Both branches of the subtraction at its edge. -/
theorem witness_AddModThirteen :
    isResidue (BitVec.ofNat 576 (modulus - 14)) = true ∧ (BitVec.ofNat 576 (modulus - 14)).toNat < modulus - 13 ∧
    isResidue (BitVec.ofNat 576 (modulus - 13)) = true ∧ modulus - 13 ≤ (BitVec.ofNat 576 (modulus - 13)).toNat := by
  decide +kernel

theorem witness_CommandsTouchOnly :
    (leftoverCore.seeded = true → isResidue leftoverCore.x = true ∧ isResidue leftoverCore.a = true) ∧
    (∃ t, exec (.seed 1 1) leftoverCore = .next t) ∧ (answered (exec (.readf 24) leftoverCore)).isSome = true ∧
    (answered (exec (.readd 11) leftoverCore)).isSome = true ∧ (answered (exec (.jump 0) leftoverCore)).isSome = true ∧
    (answered (exec (.setskip 0) leftoverCore)).isSome = true ∧
    (answered (execWith (toy agk) (.jump 5) leftoverCore)).isSome = true ∧ (toy agk).jumpResetsCursors = false ∧
    ∃ t, exec .selprim leftoverCore = .next t :=
  ⟨fun _ => by decide +kernel, seed_answers _ _ _, by decide +kernel, by decide +kernel, by decide +kernel,
    by decide +kernel, by decide +kernel, rfl, selprim_answers _ rfl⟩

theorem witness_ConfigCommandsCommute : leftoverCore.seeded = true ∧ isResidue leftoverCore.x = true := by decide +kernel

theorem witness_StepRunsDecodedCommand :
    portOpen (queueWord 0x0200000000000000000000000000000018 emptyCore) = true ∧
    decode 0x0200000000000000000000000000000018 = .ok (.readf 24) := by decide +kernel

/-- Each clause at the edge of its range, on an open port. -/
theorem witness_IllegalWordFaults :
    portOpen (queueWord 0x0000000000000000000000000000000000 State.reset) = true ∧
    ((0x00 : CmdWord).extractLsb' 128 8).toNat = 0 ∧
    6 < ((0x0700000000000000000000000000000000 : CmdWord).extractLsb' 128 8).toNat ∧
    ((0x0200000000000000010000000000000018 : CmdWord).extractLsb' 128 8).toNat ≠ 1 ∧
    (0x0200000000000000010000000000000018 : CmdWord).extractLsb' 64 64 ≠ 0 ∧
    ((0x0600000000000000000000000000000001 : CmdWord).extractLsb' 128 8).toNat = 6 ∧
    (0x0600000000000000000000000000000001 : CmdWord).extractLsb' 0 64 ≠ 0 := by decide +kernel

/-- Each of the five commands. -/
theorem witness_NotSeededFaults :
    portOpen (queueWord 0x0200000000000000000000000000000000 State.reset) = true ∧ State.reset.seeded = false ∧
    decode 0x0200000000000000000000000000000000 = .ok (.readf 0) ∧
    decode 0x0300000000000000000000000000000001 = .ok (.readd 1) ∧
    decode 0x0400000000000000000000000000000000 = .ok (.jump 0) ∧
    decode 0x0500000000000000000000000000000005 = .ok (.setskip 5) ∧
    decode 0x0600000000000000000000000000000000 = .ok .selprim := by decide +kernel

/-- A faulted core and a busy one; and a step of a faulted core that is no reset. -/
theorem witness_FaultedUntilReset :
    (raiseFault .notSeeded State.reset).fault = true ∧ (accept State.reset).busy = true ∧
    (∃ t, step (raiseFault .notSeeded State.reset) = .next t) ∧
    (raiseFault .notSeeded State.reset).host.head? ≠ some .reset :=
  ⟨rfl, rfl, ⟨_, rfl⟩, by decide⟩

theorem witness_ResetLeaves :
    ({ leftoverCore with host := [.reset, .present 0] } : State).host = HostAction.reset :: [.present 0] := rfl

/-- A core that meets the invariant and has a READF coming. -/
def busyHost : State := queueWord 0x0200000000000000000000000000000018 leftoverCore

theorem witness_InvKept :
    Inv busyHost ∧ (∃ t, step busyHost = .next t ∧ (t.x != busyHost.x) = true) ∧
    ∃ t, stepWith (resettingToy agk) busyHost = .next t ∧ (t.x != busyHost.x) = true :=
  ⟨⟨rfl, by decide +kernel, by decide +kernel, fun _ => by decide +kernel, fun _ => by decide +kernel⟩,
    next_of_answered (by decide +kernel), next_of_answered (by decide +kernel)⟩

/-- SEEDED changes at a SEED and at a reset. -/
theorem witness_SeededOnlyBySeed :
    (∃ t, stepWith Config.params (queueWord 0x0100000000000000000000000000000000 State.reset) = .next t ∧
      (t.seeded != (queueWord 0x0100000000000000000000000000000000 State.reset).seeded) = true) ∧
    ∃ t, stepWith (toy agk) { leftoverCore with host := [.reset] } = .next t ∧ (t.seeded != leftoverCore.seeded) = true :=
  ⟨next_of_answered (by decide +kernel), next_of_answered (by decide +kernel)⟩

/-- The same core with a SETSKIP coming. -/
def skippingHost : State := queueWord 0x0500000000000000000000000000000000 leftoverCore

/-- A step that changes `X`, and one that changes `A`, neither a reset. -/
theorem witness_WhoWritesXAndA :
    Inv busyHost ∧ busyHost.host.head? ≠ some .reset ∧
    (∃ t, stepWith (toy agk) busyHost = .next t ∧ (t.x != busyHost.x) = true) ∧
    Inv skippingHost ∧ skippingHost.host.head? ≠ some .reset ∧
    ∃ t, stepWith Config.params skippingHost = .next t ∧ (t.a != skippingHost.a) = true :=
  ⟨witness_InvKept.1, by decide, next_of_answered (by decide +kernel),
    ⟨rfl, by decide +kernel, by decide +kernel, fun _ => by decide +kernel, fun _ => by decide +kernel⟩, by decide,
    next_of_answered (by decide +kernel)⟩

/-- A SETSKIP that changes `A`. -/
theorem witness_MultiplierValues :
    Inv skippingHost ∧ skippingHost.host.head? ≠ some .reset ∧
    ∃ t, stepWith Config.params skippingHost = .next t ∧ (t.a != skippingHost.a) = true :=
  witness_WhoWritesXAndA.2.2.2

theorem witness_CommandsComplete :
    Inv leftoverCore ∧ leftoverCore.seeded = true ∧ ∃ t, exec (.readf 24) leftoverCore = .next t ∧ (t.fault == false) = true :=
  ⟨⟨rfl, by decide +kernel, by decide +kernel, fun _ => by decide +kernel, fun _ => by decide +kernel⟩, rfl,
    next_of_answered (by decide +kernel)⟩

/-- Two unseeded cores that differ in every register, and two seeded ones that differ in a delivered entry. -/
theorem witness_OutputIsDetermined :
    Same State.reset { leftoverCore with seeded := false } ∧
    Same leftoverCore { leftoverCore with fbuf := leftoverCore.fbuf.set 0 1, out := [⟨0, .single 1⟩] } ∧
    leftoverCore.fbuf.set 0 1 ≠ leftoverCore.fbuf :=
  ⟨⟨rfl, rfl, rfl, rfl, rfl, rfl, nofun, nofun, nofun, nofun, nofun, nofun⟩,
    ⟨rfl, rfl, rfl, rfl, rfl, rfl, fun _ => rfl, fun _ => rfl, fun _ => rfl, fun _ => rfl,
      fun _ => (by decide +kernel : leftoverCore.fbuf.toList.drop 1 = (leftoverCore.fbuf.set 0 1).toList.drop 1), fun _ => rfl⟩,
    by decide +kernel⟩

/-- The control machine at rest over a core with a READF coming. -/
def restingMicro : Micro :=
  { core := busyHost, ctl := .idle, word := 0, seedOperand := 0, caller := .jump, bs := 0, acc := 0, e := 0, bits := 0,
    prec := .single, rem := 0, o := 0, batch := [], inTail := false }

theorem witness_ControlRefinesStep :
    restingMicro.ctl = .idle ∧ portOpen restingMicro.core = true ∧
    restingMicro.core.host = .present 0x0200000000000000000000000000000018 :: [] :=
  ⟨rfl, rfl, rfl⟩

end Sys2Proof.Tests
end

section
/-! SUPPORT. JUMP (spec/44_config.md R165, R166): the register it computes, the cursors it leaves, and its result on a seeded core. -/

namespace Sys2Proof.Machine

open Sys2Proof.Safety

/-- A seeded core passes the check that guards every command but SEED (R184). -/
theorem whenSeeded_of_seeded {s : State} (hs : s.seeded = true) (k : Result) : whenSeeded s k = k :=
  if_pos hs

/-- Multiplying a residue by `b^n` takes it as far as `n` draws with the multiplier `b` (R80, R102). -/
theorem mulMod_powNat {x : Word576} (hx : isResidue x = true) (b : Word576) (n : Nat) :
    mulMod x (powNat b n) = some (stateAfter x b n) := by
  rw [← residueOf_self hx, powNat, mulMod_residueOf, residueOf_self hx, stateAfter]

/-- The `X` that JUMP computes, in closed form (R165). -/
theorem powMod_base_bind_mulMod (P : Params) (n : Operand) {x : Word576} (hx : isResidue x = true) :
    (powMod P.base n).bind (mulMod x) = some (stateAfter x P.base n.toNat) := by
  rw [powMod_base, Option.bind_some, mulMod_powNat hx]

/-- The end of JUMP writes no field but the two cursors, and those only on a core instantiated so (R166). -/
theorem afterJump_eq (P : Params) (s : State) :
    afterJump P s = { s with
      fcur := if P.jumpResetsCursors then 24 else s.fcur
      dcur := if P.jumpResetsCursors then 11 else s.dcur } := by
  cases hP : P.jumpResetsCursors with
  | false => simp [afterJump, hP]
  | true => simp [afterJump, hP, emptyBuffers]

/-- The end of JUMP on the core that `exec` runs, where JUMP_RESETS_CURSORS is the default (R13). -/
theorem afterJump_configParams (s : State) : afterJump Config.params s = s := rfl

/-- All a JUMP answers on a seeded core whose `X` is a residue (R165). -/
theorem jumpWith_eq (P : Params) (n : Operand) {s : State} (hs : s.seeded = true) (hx : isResidue s.x = true) :
    jumpWith P n s = .next (complete (afterJump P { s with x := stateAfter s.x P.base n.toNat })) := by
  rw [jumpWith, whenSeeded_of_seeded hs, powMod_base_bind_mulMod P n hx]

/-- Settles O36: POWMOD of `A_BASE` and the one product have closed forms on residues, so JUMP completes; the
core's own JUMP leaves the cursors, and any instance's leaves them as its parameter says. -/
theorem jumpResult : Obligations.JumpResult := by
  unfold Obligations.JumpResult
  constructor
  · intro n s hs hx
    rw [exec_eq_execWith, execWith, jumpWith_eq Config.params n hs hx, afterJump_configParams, complete]
  · intro P n s hs hx
    rw [execWith, jumpWith_eq P n hs hx, afterJump_eq, complete]

end Sys2Proof.Machine
end

section
/-! SUPPORT. What each command answers on a core whose registers are residues where it is seeded (spec/43_bulk_reader.md R143, R145; spec/44_config.md R161 to R171), and all that one command and one step can do there. -/

namespace Sys2Proof.Machine

open Sys2Proof.Safety

/-- A conditional subtraction reduces a sum of two numbers below the modulus. -/
theorem ite_sub_eq_add_mod {m k c : Nat} (hk : k < m) (hc : c < m) : (if m ≤ k + c then k + c - m else k + c) = (k + c) % m := by
  by_cases hm : m ≤ k + c
  · rw [if_pos hm, Nat.mod_eq_sub_mod hm, Nat.mod_eq_of_lt (by omega)]
  · rw [if_neg hm, Nat.mod_eq_of_lt (by omega)]

/-- Adding 13 with one conditional subtraction is adding modulo `M` (R170). -/
theorem addMod13_eq {t : Word576} (ht : isResidue t = true) : addMod13 t = residueOf (t.toNat + primAddend) := by
  have h13 : primAddend < modulus := by decide +kernel
  exact congrArg (BitVec.ofNat 576) (ite_sub_eq_add_mod ((isResidue_iff t).mp ht) h13)

theorem addMod13_residueOf (k : Nat) : addMod13 (residueOf k) = residueOf (k + 13) := by
  rw [addMod13_eq (isResidue_residueOf k), residueOf_toNat]
  exact residueOf_congr (Nat.mod_add_mod k modulus 13)

@[simp] theorem powNat_isResidue (b : Word576) (n : Nat) : isResidue (powNat b n) = true :=
  isResidue_residueOf _

/-- An unseeded core does not pass the check that guards every command but SEED (R184). -/
theorem whenSeeded_of_unseeded {s : State} (hs : s.seeded = false) (k : Result) :
    whenSeeded s k = .next (raiseFault .notSeeded s) := by
  rw [whenSeeded, hs]
  rfl

/-- Every command but SEED faults on an unseeded core (R184). -/
theorem execWith_of_unseeded (P : Params) {i : Instr} {s : State} (hs : s.seeded = false) (hi : isSeed i = false) :
    execWith P i s = .next (raiseFault .notSeeded s) := by
  cases i with
  | seed k p => cases hi
  | readf n => exact whenSeeded_of_unseeded hs _
  | readd n => exact whenSeeded_of_unseeded hs _
  | jump n => exact whenSeeded_of_unseeded hs _
  | setskip n => exact whenSeeded_of_unseeded hs _
  | selprim => exact whenSeeded_of_unseeded hs _

/-- What SEED writes besides `A` and `X`: both buffers empty, SEEDED set, BUSY cleared (R161). -/
def seedStore (a x : Word576) (s : State) : State :=
  complete { emptyBuffers { s with a := a, x := x } with seeded := true }

theorem seedStore_out (a x : Word576) (s : State) : (seedStore a x s).out = s.out := rfl

theorem seedStore_faultCode (a x : Word576) (s : State) : (seedStore a x s).faultCode = s.faultCode := rfl

/-- SEED completes in every state (R161, R162, R164). -/
theorem seedWith_eq (P : Params) (k p : Operand) (s : State) :
    seedWith P k p s = .next (seedStore (powNat P.base p.toNat) (powNat P.base (p.toNat * 2 ^ 96 * k.toNat)) s) := by
  rw [seedWith, seedRegs_eq, seedStore]

/-- How a READ ends: it completes, or its refused request raises MulmodPrecondition; either way `store` says what its
run has written (R143, R185). -/
def readAnswer {w B : Nat} (store : ReadRun w B → State) : Except (ReadRun w B) (ReadRun w B) → Result
  | .ok r => .next (complete (store r))
  | .error r => .next (raiseMulmod (store r))

theorem execReadf_eq_readAnswer (n : Operand) (s : State) :
    execReadf n s = whenSeeded s (readAnswer (storeF s) (readRun s.a extractF n.toNat (startF s))) := by
  rw [execReadf, operandValue]
  cases readRun s.a extractF n.toNat (startF s) <;> rfl

theorem execReadd_eq_readAnswer (n : Operand) (s : State) :
    execReadd n s = whenSeeded s (readAnswer (storeD s) (readRun s.a extractD n.toNat (startD s))) := by
  rw [execReadd, operandValue]
  cases readRun s.a extractD n.toNat (startD s) <;> rfl

/-- READF on residues (R141, R143). -/
theorem execReadf_eq (n : Operand) {s : State} (hs : s.seeded = true) (hx : isResidue s.x = true)
    (ha : isResidue s.a = true) :
    execReadf n s = .next (complete (storeF s (readEnd extractF s.a n.toNat (startF s)))) := by
  rw [execReadf_eq_readAnswer, whenSeeded_of_seeded hs, readRun_eq extractF ha n.toNat (startF s) hx, readAnswer]

/-- READD on residues (R142, R143). -/
theorem execReadd_eq (n : Operand) {s : State} (hs : s.seeded = true) (hx : isResidue s.x = true)
    (ha : isResidue s.a = true) :
    execReadd n s = .next (complete (storeD s (readEnd extractD s.a n.toNat (startD s)))) := by
  rw [execReadd_eq_readAnswer, whenSeeded_of_seeded hs, readRun_eq extractD ha n.toNat (startD s) hx, readAnswer]

/-- SETSKIP on a seeded core (R168). -/
theorem setSkipWith_eq (P : Params) (n : Operand) {s : State} (hs : s.seeded = true) :
    setSkipWith P n s = .next (complete { s with a := powNat P.base n.toNat }) := by
  rw [setSkipWith, whenSeeded_of_seeded hs, powMod_base]

/-- SELPRIM on a seeded core (R169, R170). -/
theorem selPrimWith_eq (P : Params) {s : State} (hs : s.seeded = true) :
    selPrimWith P s = .next (complete { s with a := residueOf (P.base.toNat ^ 2048 + 13) }) := by
  have he : primExponent.toNat = 2048 := rfl
  rw [selPrimWith, whenSeeded_of_seeded hs, powMod_base, he, powNat]
  simp only [addMod13_residueOf]

/-- Settles O23: on residues the run of READF is `readEnd`, whose closed form is that of R145. -/
theorem readfResult : Obligations.ReadfResult := by
  unfold Obligations.ReadfResult
  intro n s hs hx ha
  rw [exec_eq_execWith, execWith, execReadf_eq n hs hx ha, readEnd_eq (by decide) extractF s.a n.toNat (startF s) rfl]
  rfl

/-- Settles O24: on residues the run of READD is `readEnd`, whose closed form is that of R145. -/
theorem readdResult : Obligations.ReaddResult := by
  unfold Obligations.ReaddResult
  intro n s hs hx ha
  rw [exec_eq_execWith, execWith, execReadd_eq n hs hx ha, readEnd_eq (by decide) extractD s.a n.toNat (startD s) rfl]
  rfl

/-- A READ leaves a residue in `X` (R23). -/
theorem readEnd_x_isResidue {w B : Nat} (extract : Word576 → Vector (BitVec w) B) (a : Word576) (n : Nat) (r : ReadRun w B) :
    isResidue (readEnd extract a n r).x = true := by
  simp only [readEnd]
  split_ifs
  · exact stateAfter_isResidue _ _ _
  · exact stateAfter_isResidue _ _ _

/-- What a command answers on a core that holds residues if it is seeded: NotSeeded, or its completion, with what it
has written (R161, R165, R168, R169, R143, R184). No other answer is possible: `execWith_answers`. -/
inductive Answers (P : Params) (s : State) : Instr → State → Prop where
  | notSeeded {i : Instr} (hs : s.seeded = false) (hi : isSeed i = false) : Answers P s i (raiseFault .notSeeded s)
  | seed (k p : Operand) (a x : Word576) (ha : a = powNat P.base p.toNat)
      (hx : x = powNat P.base (p.toNat * 2 ^ 96 * k.toNat)) : Answers P s (.seed k p) (seedStore a x s)
  | readf (n : Operand) (r : ReadRun 32 batchF) (hs : s.seeded = true) (hx : isResidue r.x = true) :
      Answers P s (.readf n) (complete (storeF s r))
  | readd (n : Operand) (r : ReadRun 64 batchD) (hs : s.seeded = true) (hx : isResidue r.x = true) :
      Answers P s (.readd n) (complete (storeD s r))
  | jump (n : Operand) (x : Word576) (hs : s.seeded = true) (hx : isResidue x = true) :
      Answers P s (.jump n) (complete (afterJump P { s with x := x }))
  | setskip (n : Operand) (a : Word576) (hs : s.seeded = true) (ha : a = powNat P.base n.toNat) :
      Answers P s (.setskip n) (complete { s with a := a })
  | selprim (a : Word576) (hs : s.seeded = true) (ha : a = residueOf (P.base.toNat ^ 2048 + 13)) :
      Answers P s .selprim (complete { s with a := a })

/-- Every command has an answer, and it is one of `Answers`. -/
theorem execWith_answers (P : Params) (i : Instr) {s : State}
    (hr : s.seeded = true → isResidue s.x = true ∧ isResidue s.a = true) :
    ∃ t, execWith P i s = .next t ∧ Answers P s i t := by
  by_cases hu : isSeed i = false ∧ s.seeded = false
  · exact ⟨_, execWith_of_unseeded P hu.2 hu.1, .notSeeded hu.2 hu.1⟩
  · have runs : isSeed i = false → s.seeded = true ∧ isResidue s.x = true ∧ isResidue s.a = true := fun hi =>
      have hs := (Bool.not_eq_false _).mp fun h => hu ⟨hi, h⟩
      ⟨hs, hr hs⟩
    cases i with
    | seed k p => exact ⟨_, seedWith_eq P k p s, .seed k p _ _ rfl rfl⟩
    | readf n =>
      obtain ⟨hs, hx, ha⟩ := runs rfl
      exact ⟨_, execReadf_eq n hs hx ha, .readf n _ hs (readEnd_x_isResidue _ _ _ _)⟩
    | readd n =>
      obtain ⟨hs, hx, ha⟩ := runs rfl
      exact ⟨_, execReadd_eq n hs hx ha, .readd n _ hs (readEnd_x_isResidue _ _ _ _)⟩
    | jump n =>
      obtain ⟨hs, hx, -⟩ := runs rfl
      exact ⟨_, jumpWith_eq P n hs hx, .jump n _ hs (stateAfter_isResidue _ _ _)⟩
    | setskip n => exact ⟨_, setSkipWith_eq P n (runs rfl).1, .setskip n _ (runs rfl).1 rfl⟩
    | selprim => exact ⟨_, selPrimWith_eq P (runs rfl).1, .selprim _ (runs rfl).1 rfl⟩

/-- All a command can do on such a core. -/
theorem execWith_cases {P : Params} {i : Instr} {s t : State}
    (hr : s.seeded = true → isResidue s.x = true ∧ isResidue s.a = true) (h : execWith P i s = .next t) :
    Answers P s i t := by
  obtain ⟨t', h', ht'⟩ := execWith_answers P i hr
  rw [h] at h'
  rwa [Host.Outcome.next.inj h']

end Sys2Proof.Machine
end

section
/-! SUPPORT. The invariant and what every step keeps (spec/10_state.md R21 to R29): which command writes SEEDED, `X` and `A`. -/

namespace Sys2Proof.Machine

open Sys2Proof.Safety

/-- What an accepted command answers meets the invariant, if the core met it before (R23, R29). -/
theorem Answers.inv {P : Params} {s t : State} {rest : List HostAction} {i : Instr} (hs : Inv s)
    (h : Answers P (accept { s with host := rest }) i t) : Inv t := by
  obtain ⟨-, hfault, hcode, hx, ha⟩ := hs
  cases h with
  | notSeeded hu =>
    have hu : s.seeded = false := hu
    exact ⟨rfl, by simp, by simp, by simp [hu], by simp [hu]⟩
  | seed k p a x ha hx =>
    exact ⟨rfl, hfault, hcode, fun _ => hx ▸ powNat_isResidue _ _, fun _ => ha ▸ powNat_isResidue _ _⟩
  | readf n r _ hrx => exact ⟨rfl, hfault, hcode, fun _ => hrx, ha⟩
  | readd n r _ hrx => exact ⟨rfl, hfault, hcode, fun _ => hrx, ha⟩
  | jump n x _ hrx =>
    rw [afterJump_eq]
    exact ⟨rfl, hfault, hcode, fun _ => hrx, ha⟩
  | setskip n a _ ha => exact ⟨rfl, hfault, hcode, hx, fun _ => ha ▸ powNat_isResidue _ _⟩
  | selprim a _ ha => exact ⟨rfl, hfault, hcode, hx, fun _ => ha ▸ isResidue_residueOf _⟩

/-- The premise of `execWith_cases`, at a command that a core which meets the invariant has accepted. -/
theorem residues_of_inv {s : State} (hs : Inv s) (rest : List HostAction) :
    (accept { s with host := rest }).seeded = true →
      isResidue (accept { s with host := rest }).x = true ∧ isResidue (accept { s with host := rest }).a = true :=
  fun h => ⟨hs.x_residue h, hs.a_residue h⟩

/-- Reset leaves a core that meets the invariant, whatever it held before (R33, R200). -/
theorem inv_resetCore (s : State) : Inv (resetCore s) :=
  ⟨rfl, by simp, by simp, by simp, by simp⟩

/-- An illegal word is recorded as what it is, and the registers keep their values (R183). -/
theorem inv_raiseFault_illegalCommand {s : State} (hs : Inv s) (rest : List HostAction) :
    Inv (raiseFault .illegalCommand (accept { s with host := rest })) :=
  ⟨rfl, by simp, by simp, hs.x_residue, hs.a_residue⟩

/-- Every step of a core with any parameters keeps the invariant. -/
theorem stepWith_inv {P : Params} {s t : State} (hs : Inv s) (h : stepWith P s = .next t) : Inv t := by
  rcases stepBy_cases h with ⟨-, rfl⟩ | ⟨rest, -, rfl⟩ | ⟨w, rest, -, -, rfl⟩ | ⟨w, rest, e, -, -, -, rfl⟩ |
    ⟨w, rest, i, -, -, -, hi⟩
  · exact hs
  · exact inv_resetCore _
  · exact ⟨hs.idle, hs.fault_iff, hs.no_precondition, hs.x_residue, hs.a_residue⟩
  · exact inv_raiseFault_illegalCommand hs rest
  · exact (execWith_cases (residues_of_inv hs rest) hi).inv hs

/-- Settles O53: each way a step can go keeps the invariant, and `step` is the case of the core's own parameters. -/
theorem invKept : Obligations.InvKept := by
  unfold Obligations.InvKept
  constructor
  · intro s t hs h
    rw [step_eq_stepWith] at h
    exact stepWith_inv hs h
  · intro P s t hs h
    exact stepWith_inv hs h

/-- Settles O52: the invariant holds right after reset. -/
theorem invAtReset : Obligations.InvAtReset :=
  inv_resetCore State.reset

/-- A READ leaves SEEDED as it is, whether it completes or faults (R28, R143, R185). -/
theorem whenSeeded_readAnswer_seeded {w B : Nat} {store : ReadRun w B → State} {e : Except (ReadRun w B) (ReadRun w B)}
    {s t : State} (hstore : ∀ r, (store r).seeded = s.seeded) (h : whenSeeded s (readAnswer store e) = .next t) :
    t.seeded = s.seeded := by
  rcases whenSeeded_cases h with ⟨-, h⟩ | ⟨-, rfl⟩
  · cases e with
    | ok r => cases h; exact hstore r
    | error r => cases h; exact hstore r
  · rfl

theorem afterJump_seeded (P : Params) (s : State) : (afterJump P s).seeded = s.seeded := by
  rw [afterJump_eq]

theorem jumpWith_seeded {P : Params} {n : Operand} {s t : State} (h : jumpWith P n s = .next t) : t.seeded = s.seeded := by
  rcases whenSeeded_cases h with ⟨-, h⟩ | ⟨-, rfl⟩
  · split at h
    · cases h; exact afterJump_seeded P _
    · cases h; rfl
  · rfl

theorem setSkipWith_seeded {P : Params} {n : Operand} {s t : State} (h : setSkipWith P n s = .next t) :
    t.seeded = s.seeded := by
  rcases whenSeeded_cases h with ⟨-, h⟩ | ⟨-, rfl⟩
  · rw [powMod_base] at h
    cases h; rfl
  · rfl

theorem selPrimWith_seeded {P : Params} {s t : State} (h : selPrimWith P s = .next t) : t.seeded = s.seeded := by
  rcases whenSeeded_cases h with ⟨-, h⟩ | ⟨-, rfl⟩
  · rw [powMod_base] at h
    cases h; rfl
  · rfl

/-- SEED sets SEEDED, and no other command writes it, in any state and whatever fault it raises (R28). -/
theorem execWith_seeded {P : Params} {i : Instr} {s t : State} (h : execWith P i s = .next t) :
    t.seeded = (isSeed i || s.seeded) := by
  cases i with
  | seed k p =>
    have h : seedWith P k p s = .next t := h
    rw [seedWith_eq] at h
    cases h; rfl
  | readf n =>
    have h : execReadf n s = .next t := h
    rw [execReadf_eq_readAnswer] at h
    exact whenSeeded_readAnswer_seeded (storeF_seeded s) h
  | readd n =>
    have h : execReadd n s = .next t := h
    rw [execReadd_eq_readAnswer] at h
    exact whenSeeded_readAnswer_seeded (storeD_seeded s) h
  | jump n => exact jumpWith_seeded h
  | setskip n => exact setSkipWith_seeded h
  | selprim => exact selPrimWith_seeded h

theorem exists_of_isSeed {i : Instr} (h : isSeed i = true) : ∃ k p, i = .seed k p := by
  cases i with
  | seed k p => exact ⟨k, p, rfl⟩
  | _ => cases h

/-- Settles O54: of all a step can do, only a reset and the completion of a SEED write SEEDED. -/
theorem seededOnlyBySeed : Obligations.SeededOnlyBySeed := by
  unfold Obligations.SeededOnlyBySeed
  intro P s t h hne
  rcases stepBy_cases h with ⟨-, rfl⟩ | ⟨rest, hh, rfl⟩ | ⟨w, rest, -, -, rfl⟩ | ⟨w, rest, e, -, -, -, rfl⟩ |
    ⟨w, rest, i, hh, -, hd, hi⟩
  · exact absurd rfl hne
  · exact .inr ⟨rfl, rest, hh⟩
  · exact absurd rfl hne
  · exact absurd rfl hne
  · have ht := execWith_seeded hi
    cases hseed : isSeed i with
    | false =>
      rw [hseed] at ht
      exact absurd ht hne
    | true =>
      rw [hseed] at ht
      obtain ⟨k, p, rfl⟩ := exists_of_isSeed hseed
      exact .inl ⟨ht, w, rest, k, p, hh, hd⟩

/-- On a core that meets the invariant, a step that is no reset leaves `X` and `A`, or runs a command (R21, R22). -/
theorem stepWith_writes {P : Params} {s t : State} (hs : Inv s) (h : stepWith P s = .next t)
    (hh : s.host.head? ≠ some .reset) :
    (t.x = s.x ∧ t.a = s.a) ∨
    ∃ w rest i, s.host = .present w :: rest ∧ decode w = .ok i ∧ Answers P (accept { s with host := rest }) i t := by
  rcases stepBy_cases h with ⟨-, rfl⟩ | ⟨rest, hr, -⟩ | ⟨w, rest, -, -, rfl⟩ | ⟨w, rest, e, -, -, -, rfl⟩ |
    ⟨w, rest, i, hw, -, hd, hi⟩
  · exact .inl ⟨rfl, rfl⟩
  · exact absurd (by rw [hr, List.head?_cons]) hh
  · exact .inl ⟨rfl, rfl⟩
  · exact .inl ⟨rfl, rfl⟩
  · exact .inr ⟨w, rest, i, hw, hd, execWith_cases (residues_of_inv hs rest) hi⟩

/-- A command that changes `X` is SEED, JUMP, READF or READD (R21). -/
theorem Answers.writes_x {P : Params} {s t : State} {i : Instr} (h : Answers P s i t) (hx : t.x ≠ s.x) :
    ∃ k p n, i = .seed k p ∨ i = .jump n ∨ i = .readf n ∨ i = .readd n := by
  cases h with
  | notSeeded => exact absurd rfl hx
  | seed k p => exact ⟨k, p, 0, .inl rfl⟩
  | readf n => exact ⟨0, 0, n, .inr (.inr (.inl rfl))⟩
  | readd n => exact ⟨0, 0, n, .inr (.inr (.inr rfl))⟩
  | jump n => exact ⟨0, 0, n, .inr (.inl rfl)⟩
  | setskip n => exact absurd rfl hx
  | selprim => exact absurd rfl hx

/-- A command that changes `A` is SEED, SETSKIP or SELPRIM, and what it leaves there is one of the values of R22. -/
theorem Answers.writes_a {P : Params} {s t : State} {i : Instr} (h : Answers P s i t) (hne : t.a ≠ s.a) :
    (∃ k p, i = .seed k p ∧ t.a = powNat P.base p.toNat) ∨ (∃ n, i = .setskip n ∧ t.a = powNat P.base n.toNat) ∨
      (i = .selprim ∧ t.a = residueOf (P.base.toNat ^ 2048 + 13)) := by
  cases h with
  | notSeeded => exact absurd rfl hne
  | seed k p a x hp => exact .inl ⟨k, p, rfl, hp⟩
  | readf n => exact absurd rfl hne
  | readd n => exact absurd rfl hne
  | jump n x =>
    rw [afterJump_eq] at hne
    exact absurd rfl hne
  | setskip n a _ hn => exact .inr (.inl ⟨n, rfl, hn⟩)
  | selprim a _ ha => exact .inr (.inr ⟨rfl, ha⟩)

/-- Settles O55: only a command that runs writes `X` or `A`, and each command's completion shows which it writes. -/
theorem whoWritesXAndA : Obligations.WhoWritesXAndA := by
  unfold Obligations.WhoWritesXAndA
  intro P s t hs h hh
  rcases stepWith_writes hs h hh with ⟨hx, ha⟩ | ⟨w, rest, i, hw, hd, hans⟩
  · exact ⟨fun hne => absurd hx hne, fun hne => absurd ha hne⟩
  · constructor
    · intro hx
      obtain ⟨k, p, n, hi⟩ := hans.writes_x hx
      refine ⟨w, rest, k, p, n, hw, ?_⟩
      rcases hi with rfl | rfl | rfl | rfl <;> simp [hd]
    · intro ha
      rcases hans.writes_a ha with ⟨k, p, rfl, -⟩ | ⟨n, rfl, -⟩ | ⟨rfl, -⟩
      · exact ⟨w, rest, k, p, 0, hw, .inl hd⟩
      · exact ⟨w, rest, 0, 0, n, hw, .inr (.inl hd)⟩
      · exact ⟨w, rest, 0, 0, 0, hw, .inr (.inr hd)⟩

/-- Settles O56: the three commands that write `A` leave a power of `A_BASE` or SELPRIM's value. -/
theorem multiplierValues : Obligations.MultiplierValues := by
  unfold Obligations.MultiplierValues
  intro P s t hs h hh hne
  rcases stepWith_writes hs h hh with ⟨-, ha⟩ | ⟨w, rest, i, -, -, hans⟩
  · exact absurd ha hne
  · rcases hans.writes_a hne with ⟨-, p, -, ha⟩ | ⟨n, -, ha⟩ | ⟨-, ha⟩
    · exact .inl ⟨p, ha⟩
    · exact .inl ⟨n, ha⟩
    · exact .inr ha

end Sys2Proof.Machine
end

section
/-! SUPPORT. The frame of each command (spec/44_config.md R171), from all it can answer. -/

namespace Sys2Proof.Machine

open Sys2Proof.Safety

/-- The premise under which `Answers` lists all that a command does. -/
theorem exec_cases {i : Instr} {s t : State} (hr : s.seeded = true → isResidue s.x = true ∧ isResidue s.a = true)
    (h : exec i s = .next t) : Answers Config.params s i t :=
  execWith_cases hr (by rw [← exec_eq_execWith]; exact h)

section

variable {P : Params} {s t : State}

theorem Answers.seed_frame {k p : Operand} (h : Answers P s (.seed k p) t) :
    t.fbuf = s.fbuf ∧ t.dbuf = s.dbuf ∧ t.fault = s.fault ∧ t.faultCode = s.faultCode ∧ t.out = s.out ∧
      t.host = s.host ∧ t.freeCount = s.freeCount := by
  cases h with
  | notSeeded _ hi => cases hi
  | seed => exact ⟨rfl, rfl, rfl, rfl, rfl, rfl, rfl⟩

/-- On a seeded core no command raises a fault (R23, R180). -/
theorem Answers.flags {i : Instr} (h : Answers P s i t) (hs : s.seeded = true) :
    t.fault = s.fault ∧ t.faultCode = s.faultCode := by
  cases h with
  | notSeeded hu =>
    rw [hs] at hu
    cases hu
  | jump n x =>
    rw [afterJump_eq]
    exact ⟨rfl, rfl⟩
  | _ => exact ⟨rfl, rfl⟩

/-- No command touches the host's actions, and none draws free values (R23, R34). -/
theorem Answers.host_freeCount {i : Instr} (h : Answers P s i t) : t.host = s.host ∧ t.freeCount = s.freeCount := by
  cases h with
  | jump n x =>
    rw [afterJump_eq]
    exact ⟨rfl, rfl⟩
  | _ => exact ⟨rfl, rfl⟩

theorem Answers.readf_frame {n : Operand} (h : Answers P s (.readf n) t) :
    t.a = s.a ∧ t.dcur = s.dcur ∧ t.dbuf = s.dbuf ∧ t.seeded = s.seeded := by
  cases h with
  | notSeeded => exact ⟨rfl, rfl, rfl, rfl⟩
  | readf => exact ⟨rfl, rfl, rfl, rfl⟩

theorem Answers.readd_frame {n : Operand} (h : Answers P s (.readd n) t) :
    t.a = s.a ∧ t.fcur = s.fcur ∧ t.fbuf = s.fbuf ∧ t.seeded = s.seeded := by
  cases h with
  | notSeeded => exact ⟨rfl, rfl, rfl, rfl⟩
  | readd => exact ⟨rfl, rfl, rfl, rfl⟩

theorem Answers.jump_frame {n : Operand} (h : Answers P s (.jump n) t) :
    t.a = s.a ∧ t.fbuf = s.fbuf ∧ t.dbuf = s.dbuf ∧ t.seeded = s.seeded ∧ t.out = s.out := by
  cases h with
  | notSeeded => exact ⟨rfl, rfl, rfl, rfl, rfl⟩
  | jump n x =>
    rw [afterJump_eq]
    exact ⟨rfl, rfl, rfl, rfl, rfl⟩

/-- A JUMP leaves the cursors where the core is not instantiated to reset them (R166). -/
theorem Answers.jump_cursors {n : Operand} (h : Answers P s (.jump n) t) (hP : P.jumpResetsCursors = false) :
    t.fcur = s.fcur ∧ t.dcur = s.dcur := by
  cases h with
  | notSeeded => exact ⟨rfl, rfl⟩
  | jump n x =>
    rw [afterJump_eq, hP]
    exact ⟨rfl, rfl⟩

/-- SETSKIP and SELPRIM write `A` alone (R168, R169). -/
theorem Answers.multiplier_frame {n : Operand} {i : Instr} (hi : i = .setskip n ∨ i = .selprim) (h : Answers P s i t) :
    t.x = s.x ∧ t.fcur = s.fcur ∧ t.dcur = s.dcur ∧ t.fbuf = s.fbuf ∧ t.dbuf = s.dbuf ∧ t.seeded = s.seeded ∧
      t.out = s.out := by
  cases h with
  | notSeeded => exact ⟨rfl, rfl, rfl, rfl, rfl, rfl, rfl⟩
  | setskip => exact ⟨rfl, rfl, rfl, rfl, rfl, rfl, rfl⟩
  | selprim => exact ⟨rfl, rfl, rfl, rfl, rfl, rfl, rfl⟩
  | _ => simp at hi

end

/-- Settles O43: the frame of each command, with the host's and the flags' that all share. -/
theorem commandsTouchOnly : Obligations.CommandsTouchOnly := by
  unfold Obligations.CommandsTouchOnly
  intro k p n s t hr
  have shared {P : Params} {i : Instr} (h : Answers P s i t) :
      t.host = s.host ∧ t.freeCount = s.freeCount ∧ (s.seeded = true → t.fault = s.fault ∧ t.faultCode = s.faultCode) :=
    ⟨h.host_freeCount.1, h.host_freeCount.2, h.flags⟩
  refine ⟨fun h => (exec_cases hr h).seed_frame, fun h => ?_, fun h => ?_, fun P h => ?_, fun h => ?_, fun h => ?_⟩
  · have h := exec_cases hr h
    obtain ⟨ha, hcur, hbuf, hseeded⟩ := h.readf_frame
    exact ⟨ha, hcur, hbuf, hseeded, shared h⟩
  · have h := exec_cases hr h
    obtain ⟨ha, hcur, hbuf, hseeded⟩ := h.readd_frame
    exact ⟨ha, hcur, hbuf, hseeded, shared h⟩
  · have h := execWith_cases hr h
    obtain ⟨ha, hfbuf, hdbuf, hseeded, hout⟩ := h.jump_frame
    obtain ⟨hhost, hfree, hflags⟩ := shared h
    exact ⟨ha, hfbuf, hdbuf, hseeded, hout, hhost, hfree, hflags, h.jump_cursors⟩
  · have h := exec_cases hr h
    obtain ⟨ha, hfbuf, hdbuf, hseeded, hout⟩ := h.jump_frame
    obtain ⟨hfcur, hdcur⟩ := h.jump_cursors rfl
    exact ⟨ha, hfcur, hdcur, hfbuf, hdbuf, hseeded, hout, shared h⟩
  · obtain ⟨i, hi, h⟩ : ∃ i, (i = .setskip n ∨ i = .selprim) ∧ Answers Config.params s i t := by
      rcases h with h | h
      · exact ⟨_, .inl rfl, exec_cases hr h⟩
      · exact ⟨_, .inr rfl, exec_cases hr h⟩
    obtain ⟨hx, hfcur, hdcur, hfbuf, hdbuf, hseeded, hout⟩ := h.multiplier_frame hi
    exact ⟨hx, hfcur, hdcur, hfbuf, hdbuf, hseeded, hout, shared h⟩

end Sys2Proof.Machine
end

section
/-! SUPPORT. The command port, the flags and reset (spec/10_state.md R29, R30, R33; spec/20_memory.md R40). -/

namespace Sys2Proof.Machine

theorem portOpen_eq_false_iff (s : State) : portOpen s = false ↔ s.fault = true ∨ s.busy = true := by
  rw [portOpen, Bool.and_eq_false_iff, Bool.not_eq_false', Bool.not_eq_false', Or.comm]

/-- A closed port turns the presented word away (R40, R187). -/
theorem stepBy_of_closed (run : Instr → State → Result) {s : State} {w : CmdWord} {rest : List HostAction}
    (hh : s.host = .present w :: rest) (hp : portOpen s = false) : stepBy run s = .next { s with host := rest } := by
  have hp' : portOpen { s with host := rest } = false := hp
  rw [stepBy, hh]
  simp only [presentWord, hp', Bool.false_eq_true, if_false]

/-- A reset is carried out in every state (R188, R200). -/
theorem stepBy_of_reset (run : Instr → State → Result) {s : State} {rest : List HostAction}
    (hh : s.host = .reset :: rest) : stepBy run s = .next (resetCore { s with host := rest }) := by
  rw [stepBy, hh]

/-- With no action of the host the core keeps its state (R196). -/
theorem stepBy_of_idle (run : Instr → State → Result) {s : State} (hh : s.host = []) : stepBy run s = .next s := by
  rw [stepBy, hh]

/-- An open port takes the presented word to DECODE (R40, R186). -/
theorem stepBy_of_open (run : Instr → State → Result) {s : State} {w : CmdWord} {rest : List HostAction}
    (hh : s.host = .present w :: rest) (hp : portOpen s = true) :
    stepBy run s = runWord run w { s with host := rest } := by
  have hp' : portOpen { s with host := rest } = true := hp
  rw [stepBy, hh]
  simp only [presentWord, hp', if_true]

/-- A step of a faulted core that is no reset takes the host's next action and does nothing else (R187, R188). -/
theorem step_of_fault {s t : State} (hf : s.fault = true) (h : step s = .next t) (hh : s.host.head? ≠ some .reset) :
    t = { s with host := s.host.tail } := by
  have hp : portOpen s = false := (portOpen_eq_false_iff s).mpr (.inl hf)
  rcases step_cases h with ⟨h0, rfl⟩ | ⟨rest, hr, -⟩ | ⟨w, rest, hw, -, rfl⟩ | ⟨w, rest, e, -, ho, -⟩ |
    ⟨w, rest, i, -, ho, -⟩
  · rw [h0, List.tail_nil, ← h0]
  · exact absurd (by rw [hr, List.head?_cons]) hh
  · rw [hw, List.tail_cons]
  · rw [hp] at ho
    cases ho
  · rw [hp] at ho
    cases ho

/-- Settles O48: a closed port turns words away, and that is all a faulted core's step can do. -/
theorem faultedUntilReset : Obligations.FaultedUntilReset := by
  unfold Obligations.FaultedUntilReset
  constructor
  · intro s w rest hh hs
    exact stepBy_of_closed exec hh ((portOpen_eq_false_iff s).mpr hs)
  · intro s t hf h hh
    obtain rfl := step_of_fault hf h hh
    exact ⟨rfl, rfl⟩

/-- Settles O49: the reset state has the four values, and a step in which the host asserts reset leaves them. -/
theorem resetLeaves : Obligations.ResetLeaves := by
  unfold Obligations.ResetLeaves
  refine ⟨⟨rfl, rfl, rfl, rfl⟩, fun s rest hh => ?_⟩
  exact ⟨_, stepBy_of_reset exec hh, rfl, rfl, rfl, rfl, rfl, rfl⟩

/-- The layout of the status word, for any four values of the flags (R30). -/
def statusBits (c : BitVec 2) (fault seeded busy : Bool) : BitVec 8 :=
  (0 : BitVec 3) ++ c ++ BitVec.ofBool fault ++ BitVec.ofBool seeded ++ BitVec.ofBool busy

theorem statusWord_eq (s : State) : statusWord s = statusBits (faultCodeBits s.faultCode) s.fault s.seeded s.busy := rfl

theorem statusBits_fields : ∀ (c : BitVec 2) (f r b : Bool),
    (statusBits c f r b).getLsbD 0 = b ∧ (statusBits c f r b).getLsbD 1 = r ∧ (statusBits c f r b).getLsbD 2 = f ∧
      (statusBits c f r b).extractLsb' 5 3 = 0 ∧ (statusBits c f r b).extractLsb' 3 2 = c := by
  decide

/-- Settles O51: the layout, field by field, and the number each cause stands for. -/
theorem statusWordFields : Obligations.StatusWordFields := by
  unfold Obligations.StatusWordFields
  refine ⟨fun s => ?_, by decide⟩
  obtain ⟨hbusy, hseeded, hfault, hreserved, hcode⟩ := statusBits_fields (faultCodeBits s.faultCode) s.fault s.seeded s.busy
  rw [statusWord_eq]
  refine ⟨hbusy, hseeded, hfault, hreserved, ?_⟩
  rw [hcode]
  cases s.faultCode with
  | none => rfl
  | illegalCommand => rfl
  | notSeeded => rfl
  | mulmodPrecondition => rfl

end Sys2Proof.Machine
end

section
/-! SUPPORT. What no host can tell apart (spec/10_state.md R33, spec/43_bulk_reader.md R146, R149): related cores stay related through every operation, command and step. -/

namespace Sys2Proof.Machine

open Sys2Proof.Safety

section

variable {w B : Nat}

/-- Two runs of a READ that deliver the same from here on: their buffers agree from the cursor on. -/
structure SameRun (r r' : ReadRun w B) : Prop where
  x : r.x = r'.x
  cur : r.cur = r'.cur
  buf : sameFrom r.cur.val r.buf r'.buf
  out : r.out = r'.out

/-- Two phases of a READ that ended alike: both well, or both at a refused request, in runs that deliver the same. -/
inductive SameEnd : Except (ReadRun w B) (ReadRun w B) → Except (ReadRun w B) (ReadRun w B) → Prop where
  | ok {r r' : ReadRun w B} (h : SameRun r r') : SameEnd (.ok r) (.ok r')
  | error {r r' : ReadRun w B} (h : SameRun r r') : SameEnd (.error r) (.error r')

theorem sameFrom_refl {α : Type} (c : Nat) (b : Vector α B) : sameFrom c b b := rfl

/-- Buffers that agree from one entry on agree from any later one on. -/
theorem sameFrom_add {α : Type} {c : Nat} {b b' : Vector α B} (h : sameFrom c b b') (t : Nat) : sameFrom (c + t) b b' := by
  rw [sameFrom, ← List.drop_drop, ← List.drop_drop, h]

/-- Empty buffers agree on their undelivered entries, whatever they hold (R24, R25). -/
theorem sameFrom_end {α : Type} (b b' : Vector α B) : sameFrom B b b' := by
  rw [sameFrom, List.drop_of_length_le (by simp), List.drop_of_length_le (by simp)]

/-- The drain phase moves the cursor by the number of entries it delivers (R143). -/
theorem drainPhase_cur_val (n : Nat) (r : ReadRun w B) : (drainPhase n r).cur.val = r.cur.val + drainCount r.cur n := by
  have hc := r.cur.isLt
  have ht : drainCount r.cur n ≤ B - r.cur.val := min_le_left _ _
  exact Nat.mod_eq_of_lt (by omega)

theorem SameRun.drainPhase {r r' : ReadRun w B} (h : SameRun r r') (n : Nat) :
    SameRun (drainPhase n r) (drainPhase n r') := by
  obtain ⟨hx, hcur, hbuf, hout⟩ := h
  have hcur' : (Machine.drainPhase n r).cur = (Machine.drainPhase n r').cur := by
    simp only [Machine.drainPhase, hcur]
  refine ⟨hx, hcur', ?_, ?_⟩
  · rw [drainPhase_cur_val]
    exact sameFrom_add hbuf _
  · show r.out ++ (r.buf.toList.drop r.cur.val).take (drainCount r.cur n) = _
    rw [hbuf, hout, hcur]
    rfl

theorem SameRun.bulkPhase {r r' : ReadRun w B} (h : SameRun r r') (a : Word576) (extract : Word576 → Vector (BitVec w) B)
    (q : Nat) : SameEnd (bulkPhase a extract q r) (bulkPhase a extract q r') := by
  induction q generalizing r r' with
  | zero => exact .ok h
  | succ q ih =>
    obtain ⟨hx, hcur, hbuf, hout⟩ := id h
    rw [Machine.bulkPhase, Machine.bulkPhase, ← hx]
    cases advance r.x a with
    | none => exact .error h
    | some x' => exact ih ⟨rfl, hcur, hbuf, congrArg (· ++ _) hout⟩

theorem SameRun.tailPhase {r r' : ReadRun w B} (h : SameRun r r') (a : Word576) (extract : Word576 → Vector (BitVec w) B)
    (rem : Nat) : SameEnd (tailPhase a extract rem r) (tailPhase a extract rem r') := by
  rw [Machine.tailPhase, Machine.tailPhase]
  by_cases h0 : rem = 0
  · rw [if_pos h0, if_pos h0]
    exact .ok h
  · rw [if_neg h0, if_neg h0, ← h.x]
    cases advance r.x a with
    | none => exact .error h
    | some x' => exact .ok ⟨rfl, rfl, sameFrom_refl _ _, congrArg (· ++ _) h.out⟩

/-- A READ of runs that deliver the same ends alike (R143, R146). -/
theorem SameRun.readRun {r r' : ReadRun w B} (h : SameRun r r') (a : Word576) (extract : Word576 → Vector (BitVec w) B)
    (n : Nat) : SameEnd (readRun a extract n r) (readRun a extract n r') := by
  have hbulk := (h.drainPhase n).bulkPhase a extract ((n - drainCount r.cur n) / B)
  simp only [Machine.readRun, ← h.cur]
  generalize Machine.bulkPhase a extract _ (Machine.drainPhase n r) = e at hbulk ⊢
  generalize Machine.bulkPhase a extract _ (Machine.drainPhase n r') = e' at hbulk ⊢
  cases hbulk with
  | ok h => exact h.tailPhase a extract _
  | error h => exact .error h

end

section

variable {s t : State}

theorem same_setHost (h : Same s t) (rest : List HostAction) : Same { s with host := rest } { t with host := rest } :=
  { h with host := rfl }

theorem same_accept (h : Same s t) : Same (accept s) (accept t) :=
  { h with busy := rfl }

theorem same_complete (h : Same s t) : Same (complete s) (complete t) :=
  { h with busy := rfl }

theorem same_raiseFault (h : Same s t) (c : FaultCode) : Same (raiseFault c s) (raiseFault c t) :=
  { h with fault := rfl, faultCode := rfl, busy := rfl }

/-- The free values are drawn at the same count, so they are the same (U14). -/
theorem same_scramble (h : Same s t) : Same (scramble s) (scramble t) := by
  rw [scramble, scramble, h.freeCount]
  exact { h with
    freeCount := rfl, x := fun _ => rfl, a := fun _ => rfl, fcur := fun _ => rfl, dcur := fun _ => rfl
    fbuf := fun _ => rfl, dbuf := fun _ => rfl }

theorem same_raiseMulmod (h : Same s t) : Same (raiseMulmod s) (raiseMulmod t) :=
  same_raiseFault (same_scramble h) _

theorem same_resetCore (h : Same s t) : Same (resetCore s) (resetCore t) :=
  ⟨rfl, rfl, rfl, rfl, h.host, h.freeCount, nofun, nofun, nofun, nofun, nofun, nofun⟩

theorem same_setX (h : Same s t) (x : Word576) : Same { s with x := x } { t with x := x } :=
  { h with x := fun _ => rfl }

theorem same_setA (h : Same s t) (a : Word576) : Same { s with a := a } { t with a := a } :=
  { h with a := fun _ => rfl }

theorem same_emptyBuffers (h : Same s t) : Same (emptyBuffers s) (emptyBuffers t) :=
  { h with
    fcur := fun _ => rfl, dcur := fun _ => rfl
    fbuf := fun _ => sameFrom_end (B := batchF) s.fbuf t.fbuf
    dbuf := fun _ => sameFrom_end (B := batchD) s.dbuf t.dbuf }

theorem same_afterJump (P : Params) (h : Same s t) : Same (afterJump P s) (afterJump P t) := by
  rw [afterJump, afterJump]
  split_ifs
  · exact same_emptyBuffers h
  · exact h

/-- SEED writes all that two unseeded cores may differ in (R33, R161). -/
theorem same_seedStore (h : Same s t) (a x : Word576) : Same (seedStore a x s) (seedStore a x t) :=
  ⟨rfl, h.fault, h.faultCode, rfl, h.host, h.freeCount, fun _ => rfl, fun _ => rfl, fun _ => rfl, fun _ => rfl,
    fun _ => sameFrom_end (B := batchF) s.fbuf t.fbuf, fun _ => sameFrom_end (B := batchD) s.dbuf t.dbuf⟩

theorem same_storeF (h : Same s t) {r r' : ReadRun 32 batchF} (hr : SameRun r r') : Same (storeF s r) (storeF t r') :=
  { h with x := fun _ => hr.x, fcur := fun _ => hr.cur, fbuf := fun _ => hr.buf }

theorem same_storeD (h : Same s t) {r r' : ReadRun 64 batchD} (hr : SameRun r r') : Same (storeD s r) (storeD t r') :=
  { h with x := fun _ => hr.x, dcur := fun _ => hr.cur, dbuf := fun _ => hr.buf }

theorem sameRun_startF (h : Same s t) (hs : s.seeded = true) : SameRun (startF s) (startF t) :=
  ⟨h.x hs, h.fcur hs, h.fbuf hs, rfl⟩

theorem sameRun_startD (h : Same s t) (hs : s.seeded = true) : SameRun (startD s) (startD t) :=
  ⟨h.x hs, h.dcur hs, h.dbuf hs, rfl⟩

/-- Related cores show the same status word (R30). -/
theorem statusWord_eq_of_same (h : Same s t) : statusWord s = statusWord t := by
  rw [statusWord_eq, statusWord_eq, h.faultCode, h.fault, h.seeded, h.busy]

end

/-- Both results are next states, related, and the same transactions have been made on the way from `s` and from `t`. -/
def SameAnswer (s t : State) (r r' : Result) : Prop :=
  ∃ s' t' l, r = .next s' ∧ r' = .next t' ∧ Same s' t' ∧ s'.out = s.out ++ l ∧ t'.out = t.out ++ l

section

variable {s t : State}

/-- Next states that are related, with nothing delivered. -/
theorem sameAnswer_quiet {s' t' : State} (h : Same s' t') (hs : s'.out = s.out) (ht : t'.out = t.out) :
    SameAnswer s t (.next s') (.next t') :=
  ⟨s', t', [], rfl, rfl, h, by rw [hs, List.append_nil], by rw [ht, List.append_nil]⟩

/-- The check that guards every command but SEED goes the same way on related cores (R184). -/
theorem sameAnswer_whenSeeded (h : Same s t) {r r' : Result} (hr : s.seeded = true → SameAnswer s t r r') :
    SameAnswer s t (whenSeeded s r) (whenSeeded t r') := by
  cases hs : s.seeded with
  | false =>
    rw [whenSeeded_of_unseeded hs, whenSeeded_of_unseeded (h.seeded ▸ hs)]
    exact sameAnswer_quiet (same_raiseFault h _) rfl rfl
  | true =>
    rw [whenSeeded_of_seeded hs, whenSeeded_of_seeded (h.seeded ▸ hs)]
    exact hr hs

/-- READs that end alike answer alike, if what they store is related and delivered alike (R143). -/
theorem sameAnswer_readAnswer {w B : Nat} {f g : ReadRun w B → State} {e e' : Except (ReadRun w B) (ReadRun w B)}
    {elem : BitVec w → OutElem} (hsame : ∀ r r', SameRun r r' → Same (f r) (g r'))
    (hf : ∀ r, (f r).out = s.out ++ outWritesFrom 0 (r.out.map elem))
    (hg : ∀ r, (g r).out = t.out ++ outWritesFrom 0 (r.out.map elem)) (he : SameEnd e e') :
    SameAnswer s t (readAnswer f e) (readAnswer g e') := by
  cases he with
  | ok h => exact ⟨_, _, _, rfl, rfl, same_complete (hsame _ _ h), hf _, by rw [h.out]; exact hg _⟩
  | error h => exact ⟨_, _, _, rfl, rfl, same_raiseMulmod (hsame _ _ h), hf _, by rw [h.out]; exact hg _⟩

theorem execReadf_same (h : Same s t) (n : Operand) : SameAnswer s t (execReadf n s) (execReadf n t) := by
  rw [execReadf_eq_readAnswer, execReadf_eq_readAnswer]
  refine sameAnswer_whenSeeded h fun hs => ?_
  rw [← h.a hs]
  exact sameAnswer_readAnswer (fun _ _ => same_storeF h) (storeF_out s) (storeF_out t)
    ((sameRun_startF h hs).readRun s.a extractF n.toNat)

theorem execReadd_same (h : Same s t) (n : Operand) : SameAnswer s t (execReadd n s) (execReadd n t) := by
  rw [execReadd_eq_readAnswer, execReadd_eq_readAnswer]
  refine sameAnswer_whenSeeded h fun hs => ?_
  rw [← h.a hs]
  exact sameAnswer_readAnswer (fun _ _ => same_storeD h) (storeD_out s) (storeD_out t)
    ((sameRun_startD h hs).readRun s.a extractD n.toNat)

theorem afterJump_out (P : Params) (s : State) : (afterJump P s).out = s.out := by
  rw [afterJump_eq]

theorem jumpWith_same (P : Params) (h : Same s t) (n : Operand) : SameAnswer s t (jumpWith P n s) (jumpWith P n t) := by
  refine sameAnswer_whenSeeded h fun hs => ?_
  rw [← h.x hs]
  cases (powMod P.base n).bind (mulMod s.x) with
  | some x =>
    exact sameAnswer_quiet (same_complete (same_afterJump P (same_setX h x))) (afterJump_out P _) (afterJump_out P _)
  | none => exact sameAnswer_quiet (same_raiseMulmod h) rfl rfl

theorem setSkipWith_same (P : Params) (h : Same s t) (n : Operand) :
    SameAnswer s t (setSkipWith P n s) (setSkipWith P n t) := by
  refine sameAnswer_whenSeeded h fun _ => ?_
  cases powMod P.base n with
  | some a => exact sameAnswer_quiet (same_complete (same_setA h a)) rfl rfl
  | none => exact sameAnswer_quiet (same_raiseMulmod h) rfl rfl

theorem selPrimWith_same (P : Params) (h : Same s t) : SameAnswer s t (selPrimWith P s) (selPrimWith P t) := by
  refine sameAnswer_whenSeeded h fun _ => ?_
  cases powMod P.base primExponent with
  | some a => exact sameAnswer_quiet (same_complete (same_setA h (addMod13 a))) rfl rfl
  | none => exact sameAnswer_quiet (same_raiseMulmod h) rfl rfl

theorem seedWith_same (P : Params) (h : Same s t) (k p : Operand) :
    SameAnswer s t (seedWith P k p s) (seedWith P k p t) := by
  rw [seedWith_eq, seedWith_eq]
  exact sameAnswer_quiet (same_seedStore h _ _) (seedStore_out _ _ s) (seedStore_out _ _ t)

/-- A command answers alike on related cores (R33, R146). -/
theorem execWith_same (P : Params) (h : Same s t) (i : Instr) : SameAnswer s t (execWith P i s) (execWith P i t) := by
  cases i with
  | seed k p => exact seedWith_same P h k p
  | readf n => exact execReadf_same h n
  | readd n => exact execReadd_same h n
  | jump n => exact jumpWith_same P h n
  | setskip n => exact setSkipWith_same P h n
  | selprim => exact selPrimWith_same P h

/-- An accepted word answers alike on related cores (R40, R186). -/
theorem runWord_same (P : Params) (h : Same s t) (w : CmdWord) :
    SameAnswer s t (runWord (execWith P) w s) (runWord (execWith P) w t) := by
  rw [runWord, runWord]
  cases decode w with
  | error e => exact sameAnswer_quiet (same_raiseFault (same_accept h) _) rfl rfl
  | ok i => exact execWith_same P (same_accept h) i

/-- A step answers alike on related cores (R33, R146, R149). -/
theorem stepWith_same (P : Params) (h : Same s t) : SameAnswer s t (stepWith P s) (stepWith P t) := by
  have hport : portOpen t = portOpen s := by rw [portOpen, portOpen, h.busy, h.fault]
  rw [stepWith, stepWith]
  cases hs : s.host with
  | nil =>
    rw [stepBy_of_idle _ hs, stepBy_of_idle _ (h.host ▸ hs)]
    exact sameAnswer_quiet h rfl rfl
  | cons action rest =>
    have ht : t.host = action :: rest := h.host ▸ hs
    cases action with
    | reset =>
      rw [stepBy_of_reset _ hs, stepBy_of_reset _ ht]
      exact sameAnswer_quiet (same_resetCore (same_setHost h rest)) rfl rfl
    | present w =>
      cases hp : portOpen s with
      | false =>
        rw [stepBy_of_closed _ hs hp, stepBy_of_closed _ ht (hport.trans hp)]
        exact sameAnswer_quiet (same_setHost h rest) rfl rfl
      | true =>
        rw [stepBy_of_open _ hs hp, stepBy_of_open _ ht (hport.trans hp)]
        exact runWord_same P (same_setHost h rest) w

end

/-- Settles O58: a step takes related cores to related ones, along which the same transactions are made. -/
theorem outputIsDetermined : Obligations.OutputIsDetermined := by
  unfold Obligations.OutputIsDetermined
  have steps (P : Params) (s t : State) (h : Same s t) : ∃ s' t', stepWith P s = .next s' ∧ stepWith P t = .next t' ∧
      Same s' t' ∧ newElems s s' = newElems t t' ∧ statusWord s' = statusWord t' := by
    obtain ⟨s', t', l, hs, ht, h', hls, hlt⟩ := stepWith_same P h
    exact ⟨s', t', hs, ht, h', by rw [newElems_of hls, newElems_of hlt], statusWord_eq_of_same h'⟩
  refine ⟨fun s t h => ?_, steps⟩
  rw [step_eq_stepWith, step_eq_stepWith]
  exact steps Config.params s t h

end Sys2Proof.Machine
end

section
/-! SUPPORT. The multiplier requests of each command (spec/40_modexp.md R81, R87; spec/60_exceptions.md R185): which of them the multiplier grants, and what follows for the command. -/

namespace Sys2Proof.Machine

open Sys2Proof.Safety

/-- The multiplier has a result for each of these requests: all their operands are residues (R81). -/
def Granted (l : List MulRequest) : Prop := ∀ r ∈ l, isResidue r.1 = true ∧ isResidue r.2 = true

@[simp] theorem granted_nil : Granted [] := List.forall_mem_nil _

@[simp] theorem granted_cons (a b : Word576) (l : List MulRequest) :
    Granted ((a, b) :: l) ↔ (isResidue a = true ∧ isResidue b = true) ∧ Granted l :=
  List.forall_mem_cons

@[simp] theorem granted_append (l l' : List MulRequest) : Granted (l ++ l') ↔ Granted l ∧ Granted l' :=
  List.forall_mem_append

theorem not_granted_iff (l : List MulRequest) :
    ¬Granted l ↔ ∃ r ∈ l, isResidue r.1 = false ∨ isResidue r.2 = false := by
  simp only [Granted, not_forall, exists_prop, not_and_or, Bool.not_eq_true]

@[simp] theorem mulValue_isResidue (a b : Word576) : isResidue (mulValue a b) = true :=
  isResidue_residueOf _

/-- A computation that begins with a request has a result if the request is granted and the rest has one. -/
theorem mulMod_bind_isSome_iff {α : Type} (a b : Word576) (f : Word576 → Option α) :
    ((mulMod a b).bind f).isSome = true ↔ (isResidue a = true ∧ isResidue b = true) ∧ (f (mulValue a b)).isSome = true := by
  by_cases h : isResidue a = true ∧ isResidue b = true
  · rw [mulMod_eq_some h.1 h.2]
    exact (and_iff_right h).symm
  · rw [mulMod_eq_none h]
    simp [h]

/-- POWMOD's loop has a result exactly when each of its requests is granted (R81, R87). -/
theorem powLoop_isSome_iff_granted (base : Word576) (n : Operand) (i : Nat) (acc : Word576) :
    (powLoop base n i acc).isSome = true ↔ Granted (powLoopRequests base n i acc) := by
  induction i generalizing acc with
  | zero => simp [powLoop, powLoopRequests]
  | succ i ih =>
    rw [powLoop, powLoopRequests, mulMod_bind_isSome_iff]
    cases exponentBit n i with
    | false =>
      simp only [Bool.false_eq_true, if_false, Option.bind_some, ih, granted_cons]
    | true =>
      simp only [if_true, mulMod_bind_isSome_iff, ih, granted_cons]

theorem powMod_isSome_iff_granted (b : Word576) (n : Operand) :
    (powMod b n).isSome = true ↔ Granted (powRequests b n) := by
  rw [powMod, powRequests]
  by_cases hn : n = 0
  · simp [hn]
  · rw [if_neg hn, if_neg hn]
    exact powLoop_isSome_iff_granted b n _ b

/-- POWMOD of a residue is a residue (R88). -/
theorem powMod_of_isResidue {b : Word576} (hb : isResidue b = true) (n : Operand) :
    powMod b n = some (powNat b n.toNat) := by
  obtain ⟨k, rfl⟩ := exists_residueOf hb
  rw [powMod_residueOf, powNat_residueOf]

theorem powValue_isResidue {b : Word576} (hb : isResidue b = true) (n : Operand) : isResidue (powValue b n) = true := by
  rw [powValue, powMod_of_isResidue hb, Option.getD_some]
  exact powNat_isResidue _ _

theorem powRequests_granted {b : Word576} (hb : isResidue b = true) (n : Operand) : Granted (powRequests b n) := by
  rw [← powMod_isSome_iff_granted, powMod_of_isResidue hb, Option.isSome_some]

theorem advanceRequests_granted {a : Word576} (ha : isResidue a = true) (k : Nat) {x : Word576} (hx : isResidue x = true) :
    Granted (advanceRequests a k x) := by
  induction k generalizing x with
  | zero => exact granted_nil
  | succ k ih => exact (granted_cons _ _ _).mpr ⟨⟨hx, ha⟩, ih (mulValue_isResidue x a)⟩

/-- The requests of SEED do not depend on the registers, and all of them are granted (R161). -/
theorem requests_seed_granted (P : Params) (s : State) (k p : Operand) : Granted (requests P s (.seed k p)) := by
  have ha := powValue_isResidue (isResidue_base P) p
  have ht1 := powValue_isResidue ha seedExponent
  have ht2 := powValue_isResidue ht1 seedExponent
  simp only [requests, granted_append, granted_cons, granted_nil, and_true]
  exact ⟨⟨⟨⟨powRequests_granted (isResidue_base P) p, powRequests_granted ha _⟩, powRequests_granted ht1 _⟩,
    powRequests_granted ht2 k⟩, isResidue_one, powValue_isResidue ht2 k⟩

/-- A JUMP's requests are granted exactly when `X` is a residue (R165). -/
theorem requests_jump_granted_iff (P : Params) (s : State) (n : Operand) :
    Granted (requests P s (.jump n)) ↔ isResidue s.x = true := by
  simp [requests, powRequests_granted (isResidue_base P) n, powValue_isResidue (isResidue_base P) n]

/-- From residues every request of every command is granted (R23, R81). -/
theorem requests_granted (P : Params) {s : State} (i : Instr) (hx : isResidue s.x = true) (ha : isResidue s.a = true) :
    Granted (requests P s i) := by
  cases i with
  | seed k p => exact requests_seed_granted P s k p
  | readf n => exact advanceRequests_granted ha _ hx
  | readd n => exact advanceRequests_granted ha _ hx
  | jump n => exact (requests_jump_granted_iff P s n).mpr hx
  | setskip n => exact powRequests_granted (isResidue_base P) n
  | selprim => exact powRequests_granted (isResidue_base P) primExponent

/-- A READ that leftover values cover makes no draw (R145). -/
theorem advanceCount_of_le {B c n : Nat} (hB : 0 < B) (hn : n ≤ B - c) : advanceCount B c n = 0 := by
  rw [advanceCount, Nat.sub_eq_zero_of_le hn, Nat.zero_add, Nat.div_eq_of_lt (Nat.sub_lt hB one_pos)]

theorem advanceCount_pos {B c n : Nat} (hB : 0 < B) (hn : B - c < n) : 0 < advanceCount B c n :=
  Nat.div_pos (by omega) hB

theorem advanceRequests_not_granted {a x : Word576} {k : Nat} (hk : 0 < k)
    (hr : ¬(isResidue x = true ∧ isResidue a = true)) : ¬Granted (advanceRequests a k x) := by
  obtain ⟨k, rfl⟩ := Nat.exists_eq_succ_of_ne_zero hk.ne'
  exact fun h => hr ((granted_cons _ _ _).mp h).1

/-- On a seeded core the command answers a next state, whose FAULT_CODE is MulmodPrecondition exactly when one of
the command's requests is not granted. -/
def FaultsAsRefused (P : Params) (i : Instr) (s : State) : Prop :=
  ∃ t, execWith P i s = .next t ∧ (t.faultCode = .mulmodPrecondition ↔ ¬Granted (requests P s i))

section

variable {P : Params} {i : Instr} {s u : State}

theorem faultsAsRefused_of_completion (hc : s.faultCode ≠ .mulmodPrecondition) (h : execWith P i s = .next u)
    (hu : u.faultCode = s.faultCode) (hg : Granted (requests P s i)) : FaultsAsRefused P i s :=
  ⟨u, h, iff_of_false (hu ▸ hc) (not_not.mpr hg)⟩

theorem faultsAsRefused_of_refusal (h : execWith P i s = .next (raiseMulmod u)) (hg : ¬Granted (requests P s i)) :
    FaultsAsRefused P i s :=
  ⟨raiseMulmod u, h, iff_of_true rfl hg⟩

/-- A READ's draws are its requests: it completes where leftover values cover it or the registers are residues, and is
refused its first draw otherwise (R143, R185). -/
theorem faultsAsRefused_of_read {w B : Nat} (hB : 0 < B) {extract : Word576 → Vector (BitVec w) B} {n : Nat}
    {r : ReadRun w B} {store : ReadRun w B → State} (hc : s.faultCode ≠ .mulmodPrecondition)
    (hstore : ∀ r, (store r).faultCode = s.faultCode)
    (h : execWith P i s = readAnswer store (readRun s.a extract n r))
    (hreq : requests P s i = advanceRequests s.a (advanceCount B r.cur.val n) r.x) : FaultsAsRefused P i s := by
  by_cases hn : n ≤ B - r.cur.val
  · rw [readRun_small extract s.a n r hn] at h
    refine faultsAsRefused_of_completion hc h (hstore _) ?_
    rw [hreq, advanceCount_of_le hB hn]
    exact granted_nil
  · by_cases hr : isResidue r.x = true ∧ isResidue s.a = true
    · rw [readRun_eq extract hr.2 n r hr.1] at h
      exact faultsAsRefused_of_completion hc h (hstore _) (hreq ▸ advanceRequests_granted hr.2 _ hr.1)
    · rw [readRun_refused extract s.a n r (Nat.lt_of_not_le hn) hr] at h
      exact faultsAsRefused_of_refusal h
        (hreq ▸ advanceRequests_not_granted (advanceCount_pos hB (Nat.lt_of_not_le hn)) hr)

end

/-- On a seeded core with any registers, MulmodPrecondition is raised exactly for a request that is not granted (R185). -/
theorem execWith_faultsAsRefused (P : Params) (i : Instr) {s : State} (hs : s.seeded = true)
    (hc : s.faultCode ≠ .mulmodPrecondition) : FaultsAsRefused P i s := by
  cases i with
  | seed k p =>
    exact faultsAsRefused_of_completion hc (seedWith_eq P k p s) (seedStore_faultCode _ _ s) (requests_seed_granted P s k p)
  | readf n =>
    refine faultsAsRefused_of_read (extract := extractF) (r := startF s) (by decide) hc (storeF_faultCode s) ?_ rfl
    exact (execReadf_eq_readAnswer n s).trans (whenSeeded_of_seeded hs _)
  | readd n =>
    refine faultsAsRefused_of_read (extract := extractD) (r := startD s) (by decide) hc (storeD_faultCode s) ?_ rfl
    exact (execReadd_eq_readAnswer n s).trans (whenSeeded_of_seeded hs _)
  | jump n =>
    by_cases hx : isResidue s.x = true
    · refine faultsAsRefused_of_completion hc (jumpWith_eq P n hs hx) ?_ ((requests_jump_granted_iff P s n).mpr hx)
      rw [afterJump_eq]
      rfl
    · refine faultsAsRefused_of_refusal (u := s) ?_ (mt (requests_jump_granted_iff P s n).mp hx)
      rw [execWith, jumpWith, whenSeeded_of_seeded hs, powMod_base, Option.bind_some, mulMod_eq_none fun h => hx h.1]
  | setskip n =>
    exact faultsAsRefused_of_completion hc (setSkipWith_eq P n hs) rfl (powRequests_granted (isResidue_base P) n)
  | selprim =>
    exact faultsAsRefused_of_completion hc (selPrimWith_eq P hs) rfl (powRequests_granted (isResidue_base P) primExponent)

/-- Settles O12: `Granted` says of a command's requests what the multiplier makes of them. -/
theorem requestsAreResidues : Obligations.RequestsAreResidues := by
  unfold Obligations.RequestsAreResidues
  refine ⟨fun P s i hx ha => requests_granted P i hx ha, powMod_isSome_iff_granted, fun i s hs hc => ?_⟩
  obtain ⟨t, h, ht⟩ := execWith_faultsAsRefused Config.params i hs hc
  rw [← exec_eq_execWith] at h
  exact ⟨t, h, ht.trans (not_granted_iff _)⟩

end Sys2Proof.Machine
end

section
/-! SUPPORT. The control machine runs each command to the state of the one step (spec/40_modexp.md R87, spec/41_advance.md R104, spec/43_bulk_reader.md R150). -/

namespace Sys2Proof.Machine

open Sys2Proof.Safety

/-- What a READ of this precision has written when its cursor is `c`, its register `x`, and it has delivered `l`, with
the buffer as it was (R143). -/
def readStore (p : Precision) (x : Word576) (c : Nat) (l : List OutElem) (s : State) : State :=
  coreOut 0 l (setCursor p c { s with x := x })

/-- The same, with the last batch in the buffer (R143). -/
def readStoreTail (p : Precision) (x : Word576) (c : Nat) (l : List OutElem) (s : State) : State :=
  coreOut 0 l (setCursor p c (setBuffer p x { s with x := x }))

/-- How many leftover values the drain phase of a READ of `n` elements delivers (R143). -/
def drained (p : Precision) (n : Nat) (s : State) : Nat := min (batchSize p - cursorOf p s) n

/-- The first `t` leftover values (R143). -/
def leftovers (p : Precision) (t : Nat) (s : State) : List OutElem := ((bufferOf p s).drop (cursorOf p s)).take t

theorem leftovers_length (p : Precision) (n : Nat) (s : State) : (leftovers p (drained p n s) s).length = drained p n s := by
  rw [leftovers, List.length_take, List.length_drop, buffer_len, drained]
  omega

/-- The state a READ of `n` elements leaves on residues, in either precision (R143). -/
def readFinal (p : Precision) (n : Nat) (s : State) : State :=
  let rem := n - drained p n s
  let q := rem / batchSize p
  let l := leftovers p (drained p n s) s ++ batchesOf p s.x s.a q
  let v := stateAfter s.x s.a (q + 1)
  if rem % batchSize p = 0 then readStore p (stateAfter s.x s.a q) (cursorOf p s + drained p n s) l s
  else readStoreTail p v (rem % batchSize p) (l ++ (extractOf p v).take (rem % batchSize p)) s

/-- The bulk reader of one precision (its extractor, the kind of its elements, what it stores, its run at the start)
speaks of the same register, cursor, buffer and elements of the core `s` as the control machine does (R140). -/
structure ReaderOf (p : Precision) (s : State) {w : Nat} (extract : Word576 → Vector (BitVec w) (batchSize p))
    (elem : BitVec w → OutElem) (store : ReadRun w (batchSize p) → State) (r : ReadRun w (batchSize p)) : Prop where
  x : r.x = s.x
  cur : r.cur.val = cursorOf p s
  out : r.out = []
  buffer : bufferOf p s = r.buf.toList.map elem
  batch : ∀ v, extractOf p v = (extract v).toList.map elem
  stores : ∀ (x : Word576) (c : Nat) (l : List (BitVec w)),
    store ⟨x, Fin.ofNat (batchSize p + 1) c, r.buf, l⟩ = readStore p x c (l.map elem) s
  storesTail : ∀ (x : Word576) (c : Nat) (l : List (BitVec w)),
    store ⟨x, Fin.ofNat (batchSize p + 1) c, extract x, l⟩ = readStoreTail p x c (l.map elem) s

theorem readerOf_single (s : State) : ReaderOf .single s extractF .single (storeF s) (startF s) :=
  ⟨rfl, rfl, rfl, rfl, fun _ => rfl, fun _ _ _ => rfl, fun _ _ _ => rfl⟩

theorem readerOf_double (s : State) : ReaderOf .double s extractD .double (storeD s) (startD s) :=
  ⟨rfl, rfl, rfl, rfl, fun _ => rfl, fun _ _ _ => rfl, fun _ _ _ => rfl⟩

section

variable {p : Precision} {s : State} {w : Nat} {extract : Word576 → Vector (BitVec w) (batchSize p)}
  {elem : BitVec w → OutElem} {store : ReadRun w (batchSize p) → State} {r : ReadRun w (batchSize p)}

theorem ReaderOf.drained (h : ReaderOf p s extract elem store r) (n : Nat) : drainCount r.cur n = drained p n s := by
  rw [drainCount, h.cur, Machine.drained]

theorem ReaderOf.leftovers (h : ReaderOf p s extract elem store r) (t : Nat) :
    leftovers p t s = ((r.buf.toList.drop r.cur.val).take t).map elem := by
  rw [Machine.leftovers, h.buffer, h.cur, List.map_take, List.map_drop]

theorem ReaderOf.batches (h : ReaderOf p s extract elem store r) (x a : Word576) (q : Nat) :
    batchesOf p x a q = (batches extract x a q).map elem := by
  simp only [batchesOf, Machine.batches, List.map_flatMap, h.batch]

/-- The run a READ ends in, stored, is `readFinal` (R143). -/
theorem ReaderOf.readEnd (h : ReaderOf p s extract elem store r) (n : Nat) :
    store (readEnd extract s.a n r) = readFinal p n s := by
  simp only [Machine.readEnd, readFinal, drainPhase, h.drained, h.leftovers, h.batches, h.batch, h.x, h.out, h.cur,
    List.nil_append, ← List.map_append, ← List.map_take]
  by_cases h0 : (n - Machine.drained p n s) % batchSize p = 0
  · rw [if_pos h0, if_pos h0, h.stores]
  · rw [if_neg h0, if_neg h0, h.storesTail]

end

/-- Delivering more, with another register, after a READ has stored. -/
theorem coreOut_readStore (p : Precision) (x x' : Word576) (c : Nat) (l l' : List OutElem) (s : State) :
    coreOut l.length l' { readStore p x c l s with x := x' } = readStore p x' c (l ++ l') s := by
  have h := coreOut_append 0 l l' (setCursor p c { s with x := x' })
  rw [Nat.zero_add] at h
  rw [readStore, readStore, ← h]
  cases p <;> rfl

theorem coreOut_readStoreTail (p : Precision) (x v : Word576) (c r : Nat) (l l' : List OutElem) (s : State) :
    coreOut l.length l' (setCursor p r (setBuffer p v { readStore p x c l s with x := v })) =
      readStoreTail p v r (l ++ l') s := by
  have h := coreOut_append 0 l l' (setCursor p r (setBuffer p v { s with x := v }))
  rw [Nat.zero_add] at h
  rw [readStore, readStoreTail, ← h]
  cases p <;> rfl

section

variable (p : Precision) (x : Word576) (c : Nat) (l : List OutElem) (s : State)

theorem readStore_x : (readStore p x c l s).x = x := by cases p <;> rfl
theorem readStore_a : (readStore p x c l s).a = s.a := by cases p <;> rfl
theorem readStore_busy : (readStore p x c l s).busy = s.busy := by cases p <;> rfl
theorem readStore_fault : (readStore p x c l s).fault = s.fault := by cases p <;> rfl

end

variable {P : Params}

/-- The control machine after the drain phase of a READ of `n` elements, on entry to BULK (R143, R150). -/
def afterDrain (p : Precision) (n : Operand) (m : Micro) : Micro :=
  let t := drained p n.toNat m.core
  { startRead p n m with
    core := readStore p m.core.x (cursorOf p m.core + t) (leftovers p t m.core) m.core
    o := t, rem := n.toNat - t, ctl := .bulk }

theorem reach_afterDrain (p : Precision) (n : Operand) (m : Micro) (hb : m.core.busy = true) :
    Reach P (startRead p n m) (afterDrain p n m) := by
  have h := reach_drain (P := P) (drained p n.toNat m.core) (startRead p n m) hb rfl rfl
  have hcore : setCursor p (cursorOf p m.core + drained p n.toNat m.core)
      (coreOut 0 (leftovers p (drained p n.toNat m.core) m.core) m.core) =
      readStore p m.core.x (cursorOf p m.core + drained p n.toNat m.core) (leftovers p (drained p n.toNat m.core) m.core) m.core := by
    cases p <;> rfl
  rw [afterDrain, ← hcore]
  simpa only [startRead, Nat.zero_add, leftovers, operandValue] using h

theorem afterDrain_busy (p : Precision) (n : Operand) {m : Micro} (hb : m.core.busy = true) :
    (afterDrain p n m).core.busy = true :=
  (readStore_busy _ _ _ _ _).trans hb

theorem afterDrain_fault (p : Precision) (n : Operand) {m : Micro} (hf : m.core.fault = false) :
    (afterDrain p n m).core.fault = false :=
  (readStore_fault _ _ _ _ _).trans hf

/-- BULK with nothing left goes on to TAIL, which ends the command, whatever the registers hold (R143). -/
theorem ends_bulk_done (m : Micro) (hb : m.core.busy = true) (hf : m.core.fault = false) (hc : m.ctl = .bulk)
    (hl : m.batch = []) (h0 : m.rem = 0) : Ends P m (complete m.core) := by
  have hpos : ¬batchSize m.prec ≤ 0 := Nat.not_le.mpr (batchSize_pos m.prec)
  have e : microWith P m = { m with ctl := .tail } := by
    rw [microWith, hc]
    simp only [microBulk, hl, h0, if_neg hpos]
  refine ends_step ⟨hb, by simp [hc], by simp [hc]⟩ ?_
  rw [e]
  exact ends_tail { m with ctl := .tail } hb hf rfl hl h0

section

variable (p : Precision) (n : Operand) (m : Micro)

/-- A READ that leftover values cover (R145). -/
theorem ends_read_small (hb : m.core.busy = true) (hf : m.core.fault = false)
    (hn : n.toNat ≤ batchSize p - cursorOf p m.core) :
    Ends P (startRead p n m)
      (complete (readStore p m.core.x (cursorOf p m.core + n.toNat) (leftovers p n.toNat m.core) m.core)) := by
  have ht : drained p n.toNat m.core = n.toNat := min_eq_right hn
  have h := ends_bulk_done (P := P) (afterDrain p n m) (afterDrain_busy p n hb) (afterDrain_fault p n hf) rfl rfl
    (by simp only [afterDrain, ht, Nat.sub_self])
  simp only [afterDrain, ht] at h
  refine ends_reach (reach_afterDrain p n m hb) ?_
  simpa only [afterDrain, ht] using h

/-- A READ that needs a draw from registers that are no residues (R185, R187). -/
theorem ends_read_refused (hb : m.core.busy = true) (hn : batchSize p - cursorOf p m.core < n.toNat)
    (hr : ¬(isResidue m.core.x = true ∧ isResidue m.core.a = true)) :
    Ends P (startRead p n m) (raiseMulmod (readStore p m.core.x (batchSize p)
      (leftovers p (batchSize p - cursorOf p m.core) m.core) m.core)) := by
  have ht : drained p n.toNat m.core = batchSize p - cursorOf p m.core := min_eq_left hn.le
  have hcur : cursorOf p m.core + (batchSize p - cursorOf p m.core) = batchSize p :=
    Nat.add_sub_cancel' (cursor_le p m.core)
  have hrem : 0 < (afterDrain p n m).rem := by
    simp only [afterDrain, ht]
    omega
  have hr' : ¬(isResidue (afterDrain p n m).core.x = true ∧ isResidue (afterDrain p n m).core.a = true) := by
    rwa [afterDrain, readStore_x, readStore_a]
  have h := ends_refused (P := P) (afterDrain p n m) (afterDrain_busy p n hb) rfl rfl hrem hr'
  rw [show (afterDrain p n m).core = readStore p m.core.x (batchSize p)
      (leftovers p (batchSize p - cursorOf p m.core) m.core) m.core by simp only [afterDrain, ht, hcur]] at h
  exact ends_reach (reach_afterDrain p n m hb) h

/-- The control machine after the bulk phase of a READ of `n` elements on residues, on entry to TAIL (R143, R150). -/
def afterBulk (inTail : Bool) : Micro :=
  let t := drained p n.toNat m.core
  let q := (n.toNat - t) / batchSize p
  { afterDrain p n m with
    core := readStore p (stateAfter m.core.x m.core.a q) (cursorOf p m.core + t)
      (leftovers p t m.core ++ batchesOf p m.core.x m.core.a q) m.core
    o := t + q * batchSize p, rem := (n.toNat - t) % batchSize p, ctl := .tail, inTail := inTail }

theorem reach_afterBulk (hb : m.core.busy = true) (hx : isResidue m.core.x = true) (ha : isResidue m.core.a = true) :
    ∃ inTail, Reach P (startRead p n m) (afterBulk p n m inTail) := by
  have hx' : (afterDrain p n m).core.x = m.core.x := readStore_x _ _ _ _ _
  have ha' : (afterDrain p n m).core.a = m.core.a := readStore_a _ _ _ _ _
  obtain ⟨inTail, h⟩ := reach_bulk (P := P) _ (afterDrain p n m) (afterDrain_busy p n hb) rfl rfl rfl
    (hx' ▸ hx) (ha' ▸ ha)
  have hout := coreOut_readStore p m.core.x (stateAfter m.core.x m.core.a ((n.toNat - drained p n.toNat m.core) / batchSize p))
    (cursorOf p m.core + drained p n.toNat m.core) (leftovers p (drained p n.toNat m.core) m.core)
    (batchesOf p m.core.x m.core.a ((n.toNat - drained p n.toNat m.core) / batchSize p)) m.core
  rw [leftovers_length] at hout
  rw [hx', ha'] at h
  refine ⟨inTail, (reach_afterDrain p n m hb).trans ?_⟩
  rw [afterBulk, ← hout]
  exact h

theorem batchesOf_length (x a : Word576) (q : Nat) : (batchesOf p x a q).length = q * batchSize p := by
  simp [batchesOf, extract_len]

/-- A READ on residues ends in `readFinal` (R143). -/
theorem ends_read_final (hb : m.core.busy = true) (hf : m.core.fault = false) (hx : isResidue m.core.x = true)
    (ha : isResidue m.core.a = true) : Ends P (startRead p n m) (complete (readFinal p n.toNat m.core)) := by
  obtain ⟨inTail, hreach⟩ := reach_afterBulk (P := P) p n m hb hx ha
  have hb' : (afterBulk p n m inTail).core.busy = true := (readStore_busy _ _ _ _ _).trans hb
  have hf' : (afterBulk p n m inTail).core.fault = false := (readStore_fault _ _ _ _ _).trans hf
  refine ends_reach hreach ?_
  by_cases h0 : (n.toNat - drained p n.toNat m.core) % batchSize p = 0
  · rw [readFinal, if_pos h0]
    exact ends_tail _ hb' hf' rfl rfl h0
  · have hx' : (afterBulk p n m inTail).core.x = _ := readStore_x _ _ _ _ _
    have ha' : (afterBulk p n m inTail).core.a = m.core.a := readStore_a _ _ _ _ _
    have h := ends_tail_pos (P := P) (afterBulk p n m inTail) hb' hf' rfl rfl (Nat.pos_of_ne_zero h0)
      (Nat.mod_lt _ (batchSize_pos p)) (hx' ▸ stateAfter_isResidue _ _ _) (ha' ▸ ha)
    rw [hx', ha', stateAfter_add] at h
    have hlen : (afterBulk p n m inTail).o = (leftovers p (drained p n.toNat m.core) m.core ++
        batchesOf p m.core.x m.core.a ((n.toNat - drained p n.toNat m.core) / batchSize p)).length := by
      rw [List.length_append, leftovers_length, batchesOf_length]
      rfl
    rw [readFinal, if_neg h0, ← coreOut_readStoreTail, ← hlen]
    exact h

end

end Sys2Proof.Machine
end

section
/-! SUPPORT. Each command on the control machine, from its start to its end, and the refinement of one step. -/

namespace Sys2Proof.Machine

open Sys2Proof.Safety

variable {P : Params}

/-- From `m` the control machine ends in the state that this result answers. -/
def EndsAs (P : Params) (m : Micro) (r : Result) : Prop := ∃ t, r = .next t ∧ Ends P m t

/-- A READ on the control machine ends as its run in the bulk reader answers: leftover values cover it, or its draws are
made on residues, or its first draw is refused (R143, R145, R185). -/
theorem ReaderOf.endsAs {p : Precision} {w : Nat} {extract : Word576 → Vector (BitVec w) (batchSize p)}
    {elem : BitVec w → OutElem} {store : ReadRun w (batchSize p) → State} {r : ReadRun w (batchSize p)} {m : Micro}
    (h : ReaderOf p m.core extract elem store r) (n : Operand) (hb : m.core.busy = true) (hf : m.core.fault = false) :
    EndsAs P (startRead p n m) (readAnswer store (readRun m.core.a extract n.toNat r)) := by
  by_cases hn : n.toNat ≤ batchSize p - cursorOf p m.core
  · have hends := ends_read_small (P := P) p n m hb hf hn
    rw [readRun_small extract m.core.a n.toNat r (h.cur ▸ hn)]
    refine ⟨_, rfl, ?_⟩
    rw [h.stores, h.out, List.nil_append, ← h.leftovers, h.x, h.cur]
    exact hends
  · by_cases hr : isResidue m.core.x = true ∧ isResidue m.core.a = true
    · rw [readRun_eq extract hr.2 n.toNat r (h.x ▸ hr.1)]
      refine ⟨_, rfl, ?_⟩
      rw [h.readEnd]
      exact ends_read_final p n m hb hf hr.1 hr.2
    · have hn := Nat.lt_of_not_le hn
      have hends := ends_read_refused (P := P) p n m hb hn hr
      rw [readRun_refused extract m.core.a n.toNat r (h.cur ▸ hn) (h.x ▸ hr)]
      refine ⟨_, rfl, ?_⟩
      rw [h.leftovers, List.take_of_length_le (by simp [h.cur])] at hends
      rw [h.stores, h.out, List.nil_append, h.x]
      exact hends

/-- A transition from PW_DONE is the return of POWMOD to its caller (R87). -/
theorem ends_return {m : Micro} {t : State} (hb : m.core.busy = true) (hc : m.ctl = .pwDone)
    (h : Ends P (microReturn P m) t) : Ends P m t := by
  have e : microWith P m = microReturn P m := by rw [microWith, hc]
  exact ends_step ⟨hb, by simp [hc], by simp [hc]⟩ (e ▸ h)

/-- A command that calls POWMOD ends as the return of that call does. -/
theorem ends_call {c : Caller} {base : Word576} {n : Operand} {m : Micro} {r : Word576} {t : State}
    (hb : m.core.busy = true) (hr : powMod base n = some r)
    (h : ∀ b, Ends P (microReturn P { m with caller := c, bs := base, e := n, acc := r, bits := b, ctl := .pwDone }) t) :
    Ends P (callPow c base n m) t :=
  ends_pw hb hr fun b => ends_return hb rfl (h b)

/-- SEED's four exponentiations and its product, one after the other (R161). -/
theorem ends_seed {k p : Operand} {a x : Word576} {m : Micro} (hb : m.core.busy = true) (hf : m.core.fault = false)
    (h : seedRegs P k p = some (a, x)) : Ends P (microStart P (.seed k p) m) (seedStore a x m.core) := by
  simp only [seedRegs, Option.bind_eq_some_iff, Option.some.injEq, Prod.mk.injEq] at h
  obtain ⟨a, ha, t1, ht1, t2, ht2, t, ht, x, hx, rfl, rfl⟩ := h
  refine ends_call hb ha fun _ => ?_
  refine ends_call hb ht1 fun _ => ?_
  refine ends_call hb ht2 fun _ => ?_
  refine ends_call hb ht fun _ => ?_
  simp only [microReturn, hx]
  exact ends_done _ _ hf

theorem ends_jump (n : Operand) {m : Micro} (hs : m.core.seeded = true) (hb : m.core.busy = true)
    (hf : m.core.fault = false) : EndsAs P (microStart P (.jump n) m) (jumpWith P n m.core) := by
  rw [jumpWith, whenSeeded_of_seeded hs, powMod_base, Option.bind_some]
  generalize hr : powNat P.base n.toNat = r
  have hpow : powMod P.base n = some r := hr ▸ powMod_base P n
  cases hx : mulMod m.core.x r with
  | some x =>
    refine ⟨_, rfl, ends_call hb hpow fun _ => ?_⟩
    simp only [microReturn, hx]
    refine ends_done _ _ ?_
    rw [afterJump_eq]
    exact hf
  | none =>
    refine ⟨_, rfl, ends_call hb hpow fun _ => ?_⟩
    simp only [microReturn, hx]
    exact ends_fault _ _ rfl

theorem ends_setskip (n : Operand) {m : Micro} (hs : m.core.seeded = true) (hb : m.core.busy = true)
    (hf : m.core.fault = false) : EndsAs P (microStart P (.setskip n) m) (setSkipWith P n m.core) := by
  rw [setSkipWith, whenSeeded_of_seeded hs, powMod_base]
  exact ⟨_, rfl, ends_call hb (powMod_base P n) fun _ => ends_done _ _ hf⟩

theorem ends_selprim {m : Micro} (hs : m.core.seeded = true) (hb : m.core.busy = true) (hf : m.core.fault = false) :
    EndsAs P (microStart P .selprim m) (selPrimWith P m.core) := by
  rw [selPrimWith, whenSeeded_of_seeded hs, powMod_base]
  exact ⟨_, rfl, ends_call hb (powMod_base P primExponent) fun _ => ends_done _ _ hf⟩

/-- Each command that may start ends as it answers (R87, R104, R150). -/
theorem ends_start (i : Instr) {m : Micro} (hi : isSeed i = true ∨ m.core.seeded = true) (hb : m.core.busy = true)
    (hf : m.core.fault = false) : EndsAs P (microStart P i m) (execWith P i m.core) := by
  have hs : isSeed i = false → m.core.seeded = true := fun h => hi.resolve_left (by simp [h])
  cases i with
  | seed k p => exact ⟨_, seedWith_eq P k p m.core, ends_seed hb hf (seedRegs_eq P k p)⟩
  | readf n =>
    rw [execWith, execReadf_eq_readAnswer, whenSeeded_of_seeded (hs rfl)]
    exact (readerOf_single m.core).endsAs n hb hf
  | readd n =>
    rw [execWith, execReadd_eq_readAnswer, whenSeeded_of_seeded (hs rfl)]
    exact (readerOf_double m.core).endsAs n hb hf
  | jump n => exact ends_jump n (hs rfl) hb hf
  | setskip n => exact ends_setskip n (hs rfl) hb hf
  | selprim => exact ends_selprim (hs rfl) hb hf

/-- From DECODE the control machine ends as the accepted word's run answers (R183, R184, R186). -/
theorem ends_decode {m : Micro} {s : State} (hc : m.ctl = .decode) (hm : m.core = accept s) (hf : s.fault = false) :
    EndsAs P m (runWord (execWith P) m.word s) := by
  have hb : m.core.busy = true := by rw [hm, accept_busy]
  have hf : m.core.fault = false := by rw [hm, accept_fault, hf]
  have e : microWith P m = microDecode P m := by rw [microWith, hc]
  suffices h : EndsAs P (microDecode P m) (runWord (execWith P) m.word s) by
    obtain ⟨t, ht, h⟩ := h
    exact ⟨t, ht, ends_step ⟨hb, by simp [hc], by simp [hc]⟩ (e ▸ h)⟩
  rw [microDecode, runWord, ← hm]
  cases decode m.word with
  | error e => exact ⟨_, rfl, ends_fault _ _ rfl⟩
  | ok i =>
    by_cases hi : isSeed i = true ∨ m.core.seeded = true
    · have hi' : (isSeed i || m.core.seeded) = true := Bool.or_eq_true_iff.mpr hi
      simp only [hi', if_true]
      exact ends_start i hi hb hf
    · simp only [not_or, Bool.not_eq_true] at hi
      simp only [hi.1, hi.2, Bool.or_self, Bool.false_eq_true, if_false]
      exact ⟨_, execWith_of_unseeded P hi.2 hi.1, ends_fault _ _ rfl⟩

/-- The port accepts a presented word: the core is busy and DECODE is next (R40, R104). -/
theorem microWith_of_open {m : Micro} {w : CmdWord} {rest : List HostAction} (hc : m.ctl = .idle)
    (hp : portOpen m.core = true) (hh : m.core.host = .present w :: rest) :
    microWith P m = { m with core := accept { m.core with host := rest }, word := w, ctl := .decode } := by
  rw [microWith, hc]
  simp only [microPort, hh, hp, if_true]

/-- Settles O59: the first transition accepts the word, and from DECODE the control machine ends as the step answers. -/
theorem controlRefinesStep : Obligations.ControlRefinesStep := by
  unfold Obligations.ControlRefinesStep
  have refines (P : Params) (m : Micro) (w : CmdWord) (rest : List HostAction) (hc : m.ctl = .idle)
      (hp : portOpen m.core = true) (hh : m.core.host = .present w :: rest) :
      ∃ (k : Nat) (t : State), stepWith P m.core = .next t ∧ (microRunWith P (k + 1) m).core = t ∧
        (microRunWith P (k + 1) m).ctl = (if t.fault then .faulted else .idle) ∧
        ∀ j, 1 ≤ j → j ≤ k → Inside (microRunWith P j m) := by
    have hf : m.core.fault = false := by
      cases hf : m.core.fault with
      | false => rfl
      | true => rw [(portOpen_eq_false_iff m.core).mpr (.inl hf)] at hp; cases hp
    obtain ⟨t, ht, m', ⟨k, hk, hinside⟩, hcore, hctl⟩ := ends_decode (P := P) (s := { m.core with host := rest })
      (m := { m with core := accept { m.core with host := rest }, word := w, ctl := .decode }) rfl rfl hf
    rw [← microWith_of_open hc hp hh] at hk hinside
    refine ⟨k, t, (stepBy_of_open _ hh hp).trans ht, ?_, ?_, ?_⟩
    · rw [microRunWith, hk, hcore]
    · rw [microRunWith, hk, hctl]
    · intro j h1 hj
      obtain ⟨j, rfl⟩ := Nat.exists_eq_add_of_le' h1
      exact hinside j (by omega)
  refine ⟨fun m w rest hc hp hh => ?_, refines⟩
  rw [step_eq_stepWith]
  exact refines Config.params m w rest hc hp hh

end Sys2Proof.Machine
end

section
/-! SUPPORT. The output port and the command port (spec/20_memory.md R40, R44, R49): the indices and widths of what a
READ delivers, the commands that deliver nothing, and what an accepted legal word runs. -/

namespace Sys2Proof.Machine

open Sys2Proof.Safety

/-- Elements delivered from index `o` on are numbered consecutively (R44). -/
theorem outWritesFrom_index (o : Nat) (l : List OutElem) :
    (outWritesFrom o l).map OutWrite.index = List.range' o l.length := by
  induction l generalizing o with
  | nil => rfl
  | cons v l ih => rw [outWritesFrom, List.map_cons, ih, List.length_cons, List.range'_succ]

/-- A transaction delivers one of the elements it was made for (R44). -/
theorem elem_mem_of_mem_outWritesFrom {o : Nat} {l : List OutElem} {e : OutWrite} (h : e ∈ outWritesFrom o l) :
    e.elem ∈ l := by
  rw [← outWritesFrom_elems o l]
  exact List.mem_map_of_mem h

theorem readOut_length {w B : Nat} (extract : Word576 → Vector (BitVec w) B) (x a : Word576) (buf : Vector (BitVec w) B)
    (c n : Nat) : (readOut extract x a buf c n).length = n := by
  rw [readOut, List.length_map, List.length_range]

/-- The transactions of a READ of `n` elements have the indices 0 to `n - 1`, in that order, and all are of the kind
`elem` of its reader (R44). -/
theorem readOut_outWrites {w B : Nat} (elem : BitVec w → OutElem) (extract : Word576 → Vector (BitVec w) B)
    (x a : Word576) (buf : Vector (BitVec w) B) (c n : Nat) :
    (outWritesFrom 0 ((readOut extract x a buf c n).map elem)).map OutWrite.index = List.range n ∧
      ∀ e ∈ outWritesFrom 0 ((readOut extract x a buf c n).map elem), ∃ v, e.elem = elem v := by
  constructor
  · rw [outWritesFrom_index, List.length_map, readOut_length, List.range_eq_range']
  · intro e he
    obtain ⟨v, -, hv⟩ := List.mem_map.mp (elem_mem_of_mem_outWritesFrom he)
    exact ⟨v, hv.symm⟩

/-- The check that guards every command but SEED delivers nothing itself (R184). -/
theorem whenSeeded_out {s t : State} {k : Result} (hk : k = .next t → t.out = s.out) (h : whenSeeded s k = .next t) :
    t.out = s.out := by
  rcases whenSeeded_cases h with ⟨-, h⟩ | ⟨-, rfl⟩
  · exact hk h
  · exact raiseFault_out _ s

/-- JUMP delivers nothing, even where its product is refused (R171, R185). -/
theorem jumpWith_out {P : Params} {n : Operand} {s t : State} (h : jumpWith P n s = .next t) : t.out = s.out := by
  refine whenSeeded_out (fun h => ?_) h
  split at h
  · cases h
    exact afterJump_out P _
  · cases h
    exact raiseMulmod_out s

theorem setSkipWith_out {P : Params} {n : Operand} {s t : State} (h : setSkipWith P n s = .next t) : t.out = s.out := by
  refine whenSeeded_out (fun h => ?_) h
  rw [powMod_base] at h
  cases h
  rfl

theorem selPrimWith_out {P : Params} {s t : State} (h : selPrimWith P s = .next t) : t.out = s.out := by
  refine whenSeeded_out (fun h => ?_) h
  rw [powMod_base] at h
  cases h
  rfl

theorem seedWith_out {P : Params} {k p : Operand} {s t : State} (h : seedWith P k p s = .next t) : t.out = s.out := by
  rw [seedWith_eq] at h
  cases h
  exact seedStore_out _ _ s

/-- Settles O27: what a READ delivers is numbered from 0 and as long as its count, and no other command adds to the
transcript. -/
theorem outWriteIndices : Obligations.OutWriteIndices := by
  unfold Obligations.OutWriteIndices
  refine ⟨fun n s hs hx ha => ?_, fun n s hs hx ha => ?_, fun P k p n i s t hi h => ?_⟩
  · exact ⟨_, _, readfResult n s hs hx ha, rfl, readOut_outWrites .single extractF _ _ _ _ _⟩
  · exact ⟨_, _, readdResult n s hs hx ha, rfl, readOut_outWrites .double extractD _ _ _ _ _⟩
  · rcases hi with rfl | rfl | rfl | rfl
    · exact seedWith_out h
    · exact jumpWith_out h
    · exact setSkipWith_out h
    · exact selPrimWith_out h

/-- A legal word at DECODE runs its command on the busy core (R40, R186). -/
theorem runWord_of_decode (run : Instr → State → Result) {w : CmdWord} {i : Instr} (hw : decode w = .ok i) (s : State) :
    runWord run w s = run i (accept s) := by
  rw [runWord, hw]

/-- Settles O45: the open port takes the word to DECODE, which runs the command the word decodes to. -/
theorem stepRunsDecodedCommand : Obligations.StepRunsDecodedCommand := by
  unfold Obligations.StepRunsDecodedCommand
  intro s w rest i hh hp hw
  rw [step, stepBy_of_open exec hh hp, runWord_of_decode exec hw, accept]

end Sys2Proof.Machine
end

section
/-! SUPPORT. The decoder and the encoder are inverse to each other, a word is illegal exactly when it decodes to no
command, and a row of the opcode table selects exactly the words of its command (spec/30_encoding.md R62, R64, R65, R69). -/

namespace Sys2Proof

/-! ### The decoder and the encoder (R65) -/

theorem decodeFields_fields (i : Instr) : decodeFields i.fields = .ok i := by
  cases i <;> rfl

theorem decode_encode (i : Instr) : decode (encode i) = .ok i := by
  rw [encode, decode_wordOf, decodeFields_fields]

/-- Settles O1, from the decoder on the fields of each command. -/
theorem decodeOfEncode : Obligations.DecodeOfEncode := by
  unfold Obligations.DecodeOfEncode
  exact decode_encode

/-- R64's two cases, the second by its two reserved fields. -/
theorem Fields.legal_eq_false_iff (f : Fields) :
    f.legal = false ↔ f.op.toNat = 0 ∨ 6 < f.op.toNat ∨ (f.op.toNat ≠ 1 ∧ f.arg1 ≠ 0) ∨ (f.op.toNat = 6 ∧ f.arg0 ≠ 0) := by
  simp only [legal, opcodeLegal, arg1Legal, arg0Legal, Bool.and_eq_false_iff, Bool.or_eq_false_iff, decide_eq_false_iff_not,
    not_le, Nat.lt_one_iff, not_not, or_assoc, ne_eq]

theorem Fields.eq_of_op {f : Fields} {n : Nat} (h : f.op.toNat = n) : f = ⟨BitVec.ofNat 8 n, f.arg1, f.arg0⟩ := by
  rw [← h, BitVec.ofNat_toNat, BitVec.setWidth_eq]

/-- What a decoder's answer says of the fields: they are all of the answered command's, or they are illegal (R64, R65). -/
def DecodedAs (f : Fields) : Except Illegal Instr → Prop
  | .ok i => i.fields = f
  | .error _ => f.legal = false

/-- The branch of a command of one operand: it is refused exactly for a nonzero `arg1`. -/
theorem decodedAs_oneOperand {f : Fields} {n : Nat} {i : Instr} {e : Illegal} (hop : f.op.toNat = n) (hn : n ≠ 1)
    (hi : i.fields = ⟨BitVec.ofNat 8 n, 0, f.arg0⟩) : DecodedAs f (if f.arg1 = 0 then .ok i else .error e) := by
  split
  next h1 => exact hi.trans (h1 ▸ (Fields.eq_of_op hop).symm)
  next h1 => exact f.legal_eq_false_iff.mpr (.inr (.inr (.inl ⟨hop ▸ hn, h1⟩)))

/-- All the decoder can answer: the command whose fields it met, or an error on illegal fields. -/
theorem decodedAs_decodeFields (f : Fields) : DecodedAs f (decodeFields f) := by
  rw [decodeFields]
  split
  next hop => exact (Fields.eq_of_op hop).symm
  next hop => exact decodedAs_oneOperand hop (by decide) rfl
  next hop => exact decodedAs_oneOperand hop (by decide) rfl
  next hop => exact decodedAs_oneOperand hop (by decide) rfl
  next hop => exact decodedAs_oneOperand hop (by decide) rfl
  next hop =>
    split
    next h =>
      rw [Fields.eq_of_op hop, h.1, h.2]
      rfl
    next h =>
      refine f.legal_eq_false_iff.mpr ?_
      rcases not_and_or.mp h with h1 | h0
      · exact .inr (.inr (.inl ⟨by omega, h1⟩))
      · exact .inr (.inr (.inr ⟨hop, h0⟩))
  next h1 h2 h3 h4 h5 h6 =>
    simp only [imp_false] at h1 h2 h3 h4 h5 h6
    have hop : f.op.toNat = 0 ∨ 6 < f.op.toNat := by omega
    exact f.legal_eq_false_iff.mpr (hop.imp_right .inl)

/-- A word decodes to the one command that encodes it (R65). -/
theorem decode_eq_ok_iff {w : CmdWord} {i : Instr} : decode w = .ok i ↔ encode i = w := by
  constructor
  · intro h
    have hf : DecodedAs (fieldsOf w) (.ok i) := h ▸ decodedAs_decodeFields (fieldsOf w)
    rw [encode, hf, wordOf_fieldsOf]
  · rintro rfl
    exact decode_encode i

/-- Settles O2: the fields of a legal word are all of its command's. -/
theorem encodeOfDecode : Obligations.EncodeOfDecode := by
  unfold Obligations.EncodeOfDecode
  exact fun _ _ => decode_eq_ok_iff.mp

theorem encode_inj {i j : Instr} : encode i = encode j ↔ i = j := by
  rw [← decode_eq_ok_iff, decode_encode, Except.ok.injEq, eq_comm]

/-- Settles O5, by running the decoder on each word. -/
theorem workedEncodings : Obligations.WorkedEncodings := by
  unfold Obligations.WorkedEncodings
  decide +kernel

/-! ### Legality (R64) -/

theorem tableRow_statement (i : Instr) : Laws.TableRow.Statement i := by
  cases i with
  | seed k p => exact Laws.TableRow.seed k p
  | readf n => exact Laws.TableRow.readf n
  | readd n => exact Laws.TableRow.readd n
  | jump n => exact Laws.TableRow.jump n
  | setskip n => exact Laws.TableRow.setskip n
  | selprim => exact Laws.TableRow.selprim

/-- What `decode` answers and what the legality check says of the same word, side by side. -/
theorem decode_cases (w : CmdWord) :
    (∃ i, decode w = .ok i ∧ (fieldsOf w).legal = true) ∨ ∃ e, decode w = .error e ∧ (fieldsOf w).legal = false := by
  have h : DecodedAs (fieldsOf w) (decode w) := decodedAs_decodeFields (fieldsOf w)
  cases hw : decode w with
  | ok i =>
    obtain ⟨-, hlegal, -⟩ := tableRow_statement i
    have hf : i.fields = fieldsOf w := by rwa [hw] at h
    exact .inl ⟨i, rfl, hf ▸ hlegal⟩
  | error e => exact .inr ⟨e, rfl, by rwa [hw] at h⟩

theorem decode_eq_error_iff (w : CmdWord) : (∃ e, decode w = .error e) ↔ (fieldsOf w).legal = false := by
  obtain ⟨i, hw, hl⟩ | ⟨e, hw, hl⟩ := decode_cases w <;> simp [hw, hl]

theorem decoded_isSome (w : CmdWord) : (decoded w).isSome = (fieldsOf w).legal := by
  obtain ⟨i, hw, hl⟩ | ⟨e, hw, hl⟩ := decode_cases w <;> simp [decoded, hw, hl]

/-- Settles O3: the decoder refuses what the legality check refuses, and that check is R64's. -/
theorem illegalWordsExactly : Obligations.IllegalWordsExactly := by
  unfold Obligations.IllegalWordsExactly
  exact fun w => ⟨(decode_eq_error_iff w).trans (fieldsOf w).legal_eq_false_iff, decoded_isSome w⟩

/-! ### The opcode table (R62) -/

theorem wordOf_injective : Function.Injective wordOf :=
  Function.LeftInverse.injective fieldsOf_wordOf

/-- A selected word's masked fields are the match's. -/
theorem fields_of_selects {r : OpcodeRow} {f m k : Fields} (hm : r.mask = wordOf m) (hk : r.matchBits = wordOf k)
    (h : r.selects (wordOf f) = true) : f.op &&& m.op = k.op ∧ f.arg1 &&& m.arg1 = k.arg1 ∧ f.arg0 &&& m.arg0 = k.arg0 := by
  rw [OpcodeRow.selects, hm, hk, Laws.TableRow.wordOf_and, decide_eq_true_iff] at h
  obtain rfl := wordOf_injective h
  exact ⟨rfl, rfl, rfl⟩

/-- The row of a command of one operand, whose match is the opcode alone, selects only words of that command. -/
theorem fields_of_selects_oneOperand {r : OpcodeRow} {f : Fields} {op : BitVec 8}
    (hm : r.mask = 0xFFFFFFFFFFFFFFFFFF0000000000000000) (hk : r.matchBits = wordOf ⟨op, 0, 0⟩)
    (h : r.selects (wordOf f) = true) : ⟨op, 0, f.arg0⟩ = f := by
  obtain ⟨hop, h1, -⟩ := fields_of_selects (hm.trans Laws.TableRow.oneOperandMask) hk h
  have hop : f.op &&& BitVec.allOnes 8 = op := hop
  have h1 : f.arg1 &&& BitVec.allOnes 64 = 0 := h1
  rw [BitVec.and_allOnes] at hop h1
  rw [← hop, ← h1]

/-- A row selects no word but those of its own command. -/
theorem exists_fields_of_selects (j : Instr) {f : Fields} (h : j.row.selects (wordOf f) = true) :
    ∃ i : Instr, i.row = j.row ∧ i.fields = f := by
  cases j with
  | seed k p =>
    obtain ⟨hop, -⟩ := fields_of_selects (m := ⟨0xFF, 0, 0⟩) (k := ⟨0x01, 0, 0⟩)
      (show (Instr.seed 0 0).row.mask = _ by decide +kernel) (show (Instr.seed 0 0).row.matchBits = _ by decide +kernel) h
    have hop : f.op &&& BitVec.allOnes 8 = 0x01 := hop
    rw [BitVec.and_allOnes] at hop
    exact ⟨.seed f.arg0 f.arg1, rfl, by rw [Instr.fields, ← hop]⟩
  | readf n =>
    exact ⟨.readf f.arg0, rfl, fields_of_selects_oneOperand rfl (show (Instr.readf 0).row.matchBits = _ by decide +kernel) h⟩
  | readd n =>
    exact ⟨.readd f.arg0, rfl, fields_of_selects_oneOperand rfl (show (Instr.readd 0).row.matchBits = _ by decide +kernel) h⟩
  | jump n =>
    exact ⟨.jump f.arg0, rfl, fields_of_selects_oneOperand rfl (show (Instr.jump 0).row.matchBits = _ by decide +kernel) h⟩
  | setskip n =>
    exact ⟨.setskip f.arg0, rfl, fields_of_selects_oneOperand rfl (show (Instr.setskip 0).row.matchBits = _ by decide +kernel) h⟩
  | selprim =>
    have hrow : Instr.selprim.row = ⟨"SELPRIM", wordOf Instr.selprim.fields, BitVec.allOnes 136⟩ := by decide +kernel
    rw [hrow, OpcodeRow.selects, BitVec.and_allOnes, decide_eq_true_iff] at h
    exact ⟨.selprim, rfl, wordOf_injective h.symm⟩

/-- A row selects a word exactly when the word encodes a command of that row (R62). -/
theorem row_selects_iff (j : Instr) (w : CmdWord) : j.row.selects w = true ↔ ∃ i : Instr, i.row = j.row ∧ encode i = w := by
  constructor
  · intro h
    rw [← wordOf_fieldsOf w] at h
    obtain ⟨i, hrow, hf⟩ := exists_fields_of_selects j h
    exact ⟨i, hrow, by rw [encode, hf, wordOf_fieldsOf]⟩
  · rintro ⟨i, hrow, rfl⟩
    obtain ⟨-, -, -, hsel⟩ := tableRow_statement i
    exact hrow ▸ hsel

theorem exists_row_of_mem_opcodeTable {r : OpcodeRow} (h : r ∈ opcodeTable) : ∃ j : Instr, j.row = r := by
  simp only [opcodeTable, List.mem_cons, List.not_mem_nil, or_false] at h
  obtain rfl | rfl | rfl | rfl | rfl | rfl := h <;> exact ⟨_, rfl⟩

/-- The table holds the row of each command once. -/
theorem opcodeTable_filter_row (i : Instr) : opcodeTable.filter (fun r => r = i.row) = [i.row] := by
  cases i <;> rfl

/-- Settles O4: a row of the table selects a word when the word's command has that row. -/
theorem oneRowPerLegalWord : Obligations.OneRowPerLegalWord := by
  unfold Obligations.OneRowPerLegalWord
  intro w
  cases hw : decode w with
  | ok i =>
    obtain rfl := decode_eq_ok_iff.mp hw
    refine (List.filter_congr fun r hr => ?_).trans (opcodeTable_filter_row i)
    obtain ⟨j, rfl⟩ := exists_row_of_mem_opcodeTable hr
    rw [Bool.eq_iff_iff, row_selects_iff, decide_eq_true_iff]
    simp only [encode_inj, exists_eq_right]
    exact eq_comm
  | error e =>
    refine List.filter_eq_nil_iff.mpr fun r hr hsel => ?_
    obtain ⟨j, rfl⟩ := exists_row_of_mem_opcodeTable hr
    obtain ⟨i, -, rfl⟩ := (row_selects_iff j w).mp hsel
    rw [decode_encode] at hw
    cases hw

end Sys2Proof
end

section
/-! SUPPORT. The multiplier and the exponentiation engine as arithmetic on residues (spec/40_modexp.md R80 to R88). -/

namespace Sys2Proof.Machine

open Sys2Proof.Safety

theorem mulMod_comm (a b : Word576) : mulMod a b = mulMod b a := by
  simp only [mulMod, mulValue, Bool.and_comm (isResidue a), Nat.mul_comm a.toNat]

/-- A request is refused exactly for an operand that is no residue (R81). -/
theorem mulMod_eq_none_iff (a b : Word576) : mulMod a b = none ↔ isResidue a = false ∨ isResidue b = false := by
  constructor
  · intro h
    by_contra hab
    simp only [not_or, Bool.not_eq_false] at hab
    rw [mulMod_eq_some hab.1 hab.2] at h
    cases h
  · intro h
    exact mulMod_eq_none fun hab => by simp [hab] at h

/-- Settles O7: MULMOD of residues of numbers is the residue of their product, and inherits the integers' laws. -/
theorem mulModLaws : Obligations.MulModLaws := by
  unfold Obligations.MulModLaws
  refine ⟨mulMod_comm, fun a b r h => ?_, fun a b c ha hb hc => ?_, fun a b => (mulMod_eq_none_iff a b).symm⟩
  · obtain ⟨-, -, rfl⟩ := mulMod_cases h
    exact isResidue_residueOf _
  · obtain ⟨k, rfl⟩ := exists_residueOf ha
    obtain ⟨l, rfl⟩ := exists_residueOf hb
    obtain ⟨m, rfl⟩ := exists_residueOf hc
    simp only [mulMod_residueOf, Option.bind_some, Nat.mul_assoc]

theorem residueOf_zero : residueOf 0 = 0 := rfl

theorem mulMod_zero {a : Word576} (ha : isResidue a = true) : mulMod a 0 = some 0 := by
  obtain ⟨k, rfl⟩ := exists_residueOf ha
  rw [← residueOf_zero, mulMod_residueOf, Nat.mul_zero]

theorem mulMod_one {a : Word576} (ha : isResidue a = true) : mulMod a residueOne = some a := by
  obtain ⟨k, rfl⟩ := exists_residueOf ha
  rw [residueOne_eq, mulMod_residueOf, Nat.mul_one]

/-- Settles O6: below the modulus a request is granted; the two products of fixed numbers are computed. -/
theorem mulModContract : Obligations.MulModContract := by
  unfold Obligations.MulModContract
  rw [← modulus_eq]
  refine ⟨fun a b ha hb => ?_, by decide +kernel, by decide +kernel⟩
  have ha := (isResidue_iff a).mpr ha
  have hb := (isResidue_iff b).mpr hb
  exact ⟨_, mulMod_eq_some ha hb, residueOf_toNat _, mulMod_zero ha, mulMod_one ha⟩

/-- Settles O8: the invariant of the loop is `powLoop_residueOf`. -/
theorem powModIsModularPower : Obligations.PowModIsModularPower := by
  unfold Obligations.PowModIsModularPower
  exact fun b n hb => powMod_of_isResidue hb n

/-- Settles O9: the scan of the exponent is not entered. -/
theorem powModZeroExponent : Obligations.PowModZeroExponent := by
  unfold Obligations.PowModZeroExponent
  exact fun b => ⟨if_pos rfl, if_pos rfl⟩

/-- One squaring of the accumulator (R85). -/
def square (v : Word576) : Word576 := mulValue v v

theorem square_powNat (b : Word576) (m : Nat) : square (powNat b m) = powNat b (m * 2) := by
  apply residueOf_congr
  rw [powNat, residueOf_toNat, ← Nat.mul_mod, ← pow_two, ← pow_mul]

/-- `j` squarings of a residue (R88 (f)). -/
theorem iterate_square {b : Word576} (hb : isResidue b = true) (j : Nat) : square^[j] b = powNat b (2 ^ j) := by
  induction j with
  | zero => rw [Function.iterate_zero_apply, pow_zero, powNat, pow_one, residueOf_self hb]
  | succ j ih => rw [Function.iterate_succ_apply', ih, square_powNat, ← pow_succ]

/-- Where no exponent bit is left to multiply for, the loop's requests are squarings (R85, R87). -/
theorem powLoopRequests_of_zero_bits (base : Word576) {n : Operand} {i : Nat} (h : ∀ j < i, exponentBit n j = false)
    (acc : Word576) :
    powLoopRequests base n i acc = (List.range i).map fun j => (square^[j] acc, square^[j] acc) := by
  induction i generalizing acc with
  | zero => rfl
  | succ i ih =>
    have hi : exponentBit n i = false := h i (Nat.lt_succ_self i)
    have tail := ih (fun j hj => h j (Nat.lt_succ_of_lt hj)) (square acc)
    simp only [powLoopRequests, hi, Bool.false_eq_true, if_false, List.range_succ_eq_map, List.map_cons, List.map_map]
    exact congrArg ((acc, acc) :: ·) tail

theorem toNat_ofNat_two_pow {k : Nat} (hk : k ≤ 63) : (BitVec.ofNat 64 (2 ^ k)).toNat = 2 ^ k := by
  rw [BitVec.toNat_ofNat]
  exact Nat.mod_eq_of_lt (Nat.pow_lt_pow_right one_lt_two (Nat.lt_succ_of_le hk))

theorem operand_ne_zero_iff (n : Operand) : n ≠ 0 ↔ n.toNat ≠ 0 :=
  BitVec.toNat_ne_iff_ne.symm

theorem ofNat_two_pow_ne_zero {k : Nat} (hk : k ≤ 63) : BitVec.ofNat 64 (2 ^ k) ≠ 0 := by
  rw [operand_ne_zero_iff, toNat_ofNat_two_pow hk]
  exact (Nat.two_pow_pos k).ne'

/-- The requests for an exponent with one bit set: as many squarings as there are bits below it (R88 (f)). -/
theorem powRequests_two_pow (b : Word576) {k : Nat} (hk : k ≤ 63) :
    powRequests b (BitVec.ofNat 64 (2 ^ k)) = (List.range k).map fun j => (square^[j] b, square^[j] b) := by
  have hmsb : msb (operandValue (BitVec.ofNat 64 (2 ^ k))) = k := by
    rw [msb, operandValue, toNat_ofNat_two_pow hk, Nat.log2_two_pow]
  rw [powRequests, if_neg (ofNat_two_pow_ne_zero hk), hmsb]
  refine powLoopRequests_of_zero_bits b (fun j hj => ?_) b
  rw [exponentBit, BitVec.getLsbD, toNat_ofNat_two_pow hk, Nat.testBit_two_pow_of_ne hj.ne']

/-- Settles O10: on residues of numbers the laws are those of integer powers, and the requests for `2^k` are listed. -/
theorem powModLaws : Obligations.PowModLaws := by
  unfold Obligations.PowModLaws
  refine ⟨fun b => rfl, fun n => ?_, fun n hn => ?_, fun b i j hb => ?_, fun b i j hb => ?_, fun b c n hb hc => ?_,
    fun b k hk => ?_, fun b k hb hk => ?_⟩
  · rw [residueOne_eq, powMod_residueOf, one_pow]
  · rw [← residueOf_zero, powMod_residueOf, zero_pow ((operand_ne_zero_iff n).mp hn)]
  · rw [powMod_of_isResidue hb, Option.bind_some, powNat, powMod_residueOf, ← pow_mul, powNat]
  · simp only [powMod_of_isResidue hb, Option.bind_some, powNat, mulMod_residueOf, pow_add]
  · obtain ⟨k, rfl⟩ := exists_residueOf hb
    obtain ⟨l, rfl⟩ := exists_residueOf hc
    simp only [mulMod_residueOf, powMod_residueOf, Option.bind_some, mul_pow]
  · rw [powRequests_two_pow b hk]
    refine ⟨by rw [List.length_map, List.length_range], fun r hr => ?_⟩
    obtain ⟨j, -, rfl⟩ := List.mem_map.mp hr
    rfl
  · simp only [powRequests_two_pow b hk, iterate_square hb]

end Sys2Proof.Machine
end

section
/-! SUPPORT. How many multiplier requests each command makes (spec/40_modexp.md R87, R90; spec/70_reset_and_hazards.md R210). -/

namespace Sys2Proof.Machine

/-- One squaring per bit scanned, and one product per bit that is set (R87). -/
theorem powLoopRequests_length (base : Word576) (n : Operand) (i : Nat) (acc : Word576) :
    (powLoopRequests base n i acc).length = i + (List.range i).countP fun j => exponentBit n j := by
  induction i generalizing acc with
  | zero => rfl
  | succ i ih =>
    rw [powLoopRequests, List.range_succ, List.countP_append, List.countP_singleton]
    cases exponentBit n i with
    | false =>
      simp only [Bool.false_eq_true, if_false, List.length_cons, ih]
      omega
    | true =>
      simp only [if_true, List.length_cons, ih]
      omega

theorem msb_lt {n : Operand} (hn : n.toNat ≠ 0) : msb n.toNat < 64 :=
  (Nat.log2_lt hn).mpr n.isLt

theorem exponentBit_msb {n : Operand} (hn : n.toNat ≠ 0) : exponentBit n (msb n.toNat) = true :=
  Nat.testBit_log2 hn

theorem exponentBit_above_msb (n : Operand) {j : Nat} (hj : msb n.toNat < j) : exponentBit n j = false :=
  Nat.testBit_lt_two_pow (Nat.lt_log2_self.trans_le (Nat.pow_le_pow_right two_pos hj))

/-- A count over a range may stop where nothing is left to count. -/
theorem countP_range_of_false_above {p : Nat → Bool} {i m : Nat} (him : i ≤ m) (h : ∀ j, i ≤ j → p j = false) :
    (List.range m).countP p = (List.range i).countP p := by
  induction m, him using Nat.le_induction with
  | base => rfl
  | succ m him ih => rw [List.range_succ, List.countP_append, ih, List.countP_singleton, h m him]; rfl

/-- The set bits of a nonzero operand: the top one, and those below it (R15). -/
theorem popcount_eq {n : Operand} (hn : n.toNat ≠ 0) :
    popcount n = ((List.range (msb n.toNat)).countP fun j => exponentBit n j) + 1 := by
  rw [popcount, countP_range_of_false_above (msb_lt hn) fun j => exponentBit_above_msb n, List.range_succ,
    List.countP_append, List.countP_singleton, if_pos (exponentBit_msb hn)]

/-- POWMOD makes `c(n)` requests (R90). -/
theorem powRequests_length (b : Word576) (n : Operand) : (powRequests b n).length = powWork n := by
  rw [powRequests, powWork]
  by_cases hn : n = 0
  · rw [if_pos hn, if_pos hn, List.length_nil]
  · rw [if_neg hn, if_neg hn, powLoopRequests_length, operandValue, popcount_eq ((operand_ne_zero_iff n).mp hn)]
    rfl

theorem advanceRequests_length (a : Word576) (k : Nat) (x : Word576) : (advanceRequests a k x).length = k := by
  induction k generalizing x with
  | zero => rfl
  | succ k ih => rw [advanceRequests, List.length_cons, ih]

/-- An exponent `2^k` costs `k` requests: its requests are the `k` squarings (R88 (f)). -/
theorem powWork_two_pow {k : Nat} (hk : k ≤ 63) : powWork (BitVec.ofNat 64 (2 ^ k)) = k := by
  rw [← powRequests_length 0, powRequests_two_pow 0 hk, List.length_map, List.length_range]

theorem powWork_seedExponent : powWork seedExponent = 48 :=
  powWork_two_pow (k := 48) (by decide)

theorem powWork_primExponent : powWork primExponent = 11 :=
  powWork_two_pow (k := 11) (by decide)

/-- Each command's list of requests is as long as R210's table says. -/
theorem requests_length (P : Params) (s : State) (i : Instr) : (requests P s i).length = work s i := by
  cases i with
  | seed k p =>
    simp only [requests, work, List.length_append, powRequests_length, powWork_seedExponent, List.length_singleton]
  | readf n => exact advanceRequests_length _ _ _
  | readd n => exact advanceRequests_length _ _ _
  | jump n => rw [requests, List.length_append, powRequests_length, List.length_singleton, work]
  | setskip n => exact powRequests_length _ _
  | selprim => exact (powRequests_length _ _).trans powWork_primExponent

/-- 63 squarings and 63 products are the most that an exponent costs (R90). -/
theorem powWork_le (n : Operand) : powWork n ≤ 126 := by
  rw [powWork]
  split_ifs with hn
  · exact Nat.zero_le _
  · have hmsb := msb_lt ((operand_ne_zero_iff n).mp hn)
    have hpop : popcount n ≤ 64 := List.countP_le_length
    rw [operandValue]
    omega

/-- Settles O11: the counts of the requests, and the bounds from those of `powWork`. -/
theorem workPerCommand : Obligations.WorkPerCommand := by
  unfold Obligations.WorkPerCommand
  refine ⟨powRequests_length, requests_length, fun s k p => ?_, fun s n => ?_, fun s n => powWork_le n⟩
  · have hk := powWork_le k
    have hp := powWork_le p
    simp only [work]
    omega
  · exact Nat.add_le_add_right (powWork_le n) 1

end Sys2Proof.Machine
end

section
/-! SUPPORT. The state-advance step, alone and repeated (spec/41_advance.md R100 to R103). -/

namespace Sys2Proof.Machine

open Sys2Proof.Safety

/-- The number in the register after one ADVANCE (R100). -/
theorem stateAfter_one_toNat (x a : Word576) : (stateAfter x a 1).toNat = x.toNat * a.toNat % modulus := by
  rw [stateAfter, residueOf_toNat, pow_one]

/-- Settles O13: on residues an ADVANCE is one draw of the closed form; the spec's two examples are computed. -/
theorem advanceStep : Obligations.AdvanceStep := by
  unfold Obligations.AdvanceStep
  refine ⟨fun x a hx ha => ?_, by decide +kernel, by decide +kernel⟩
  exact ⟨stateAfter x a 1, advance_eq hx ha, stateAfter_one_toNat x a⟩

/-- Repeated ADVANCE never leaves the residues, so each step is granted, and the draws add up (R102). -/
theorem iterate_advance {x a : Word576} (hx : isResidue x = true) (ha : isResidue a = true) (k : Nat) :
    (fun o : Option Word576 => o.bind fun v => advance v a)^[k] (some x) = some (stateAfter x a k) := by
  induction k with
  | zero => rw [Function.iterate_zero_apply, stateAfter_zero hx]
  | succ k ih =>
    rw [Function.iterate_succ_apply', ih, Option.bind_some, advance_eq (stateAfter_isResidue x a k) ha, stateAfter_add]

/-- `k` draws at once: one POWMOD of the multiplier and one request (R102). -/
theorem powMod_bind_mulMod {x a : Word576} (hx : isResidue x = true) (ha : isResidue a = true) (k : Operand) :
    (powMod a k).bind (fun t => mulMod x t) = some (stateAfter x a k.toNat) := by
  rw [powMod_of_isResidue ha, Option.bind_some, mulMod_powNat hx]

/-- With the multiplier ONE no draw changes the state (R103 (a)). -/
theorem stateAfter_residueOne {x : Word576} (hx : isResidue x = true) (k : Nat) : stateAfter x residueOne k = x := by
  obtain ⟨n, rfl⟩ := exists_residueOf hx
  rw [residueOne_eq, stateAfter_residueOf, one_pow, Nat.mul_one]

/-- No draw leaves the state 0 (R103 (b)). -/
theorem stateAfter_zero_left (a : Word576) (k : Nat) : stateAfter 0 a k = 0 := by
  rw [← residueOf_zero, stateAfter, residueOf_toNat, Nat.zero_mod, Nat.zero_mul]

/-- The multiplier 0 takes every state to 0 in one ADVANCE (R103 (c)). -/
theorem advance_zero_right {x : Word576} (hx : isResidue x = true) : advance x 0 = some 0 :=
  mulMod_zero hx

/-- Settles O14: the iterated step, the one exponentiation that replaces it, and the degenerate cases. -/
theorem drawsClosedForm : Obligations.DrawsClosedForm := by
  unfold Obligations.DrawsClosedForm
  exact ⟨fun _ _ k hx ha => iterate_advance hx ha k, fun _ _ k hx ha => powMod_bind_mulMod hx ha k,
    fun _ k hx => stateAfter_residueOne hx k, stateAfter_zero_left, fun _ => advance_zero_right⟩

end Sys2Proof.Machine
end

section
/-! SUPPORT. The fields of a state as slices and shifts of its 64-bit limbs (spec/42_extract.md R112, R114, R120, R122). -/

namespace Sys2Proof.Machine

/-- A slice that stays inside one limb. -/
theorem extractLsb'_limb (v : Word576) (i : Nat) {s n : Nat} (h : s + n ≤ 64) :
    (limb v i).extractLsb' s n = v.extractLsb' (64 * i + s) n := by
  refine BitVec.eq_of_getLsbD_eq fun j hj => ?_
  have hs : s + j < 64 := by omega
  simp [limb, hj, hs, Nat.add_assoc]

/-- A slice across a limb boundary: the low part of one limb above the high part of the limb below. -/
theorem extractLsb'_limb_append (v : Word576) (i : Nat) {s n m : Nat} (hs : s + n = 64) (hm : m ≤ 64) :
    (limb v (i + 1)).extractLsb' 0 m ++ (limb v i).extractLsb' s n = v.extractLsb' (64 * i + s) (m + n) := by
  rw [extractLsb'_limb v (i + 1) (by omega), extractLsb'_limb v i hs.le]
  exact BitVec.extractLsb'_append_extractLsb'_eq_extractLsb' (by omega)

/-- A 24-bit field named by the limb position of its lowest bit. -/
theorem ffield_eq_extractLsb' (v : Word576) {k p : Nat} (h : 24 * k = p) : ffield v k = v.extractLsb' p 24 := by
  rw [ffield, h]

theorem ffield_eq_limb (v : Word576) {k i s : Nat} (h : 24 * k = 64 * i + s) (hs : s + 24 ≤ 64) :
    ffield v k = (limb v i).extractLsb' s 24 := by
  rw [ffield, h, extractLsb'_limb v i hs]

/-- Settles O16: the fields from bits 48 and 120 of the group cross a limb boundary, the other six do not. -/
theorem singleFieldLimbs : Obligations.SingleFieldLimbs := by
  unfold Obligations.SingleFieldLimbs
  intro v g _
  refine ⟨ffield_eq_limb v (by omega) (by omega), ffield_eq_limb v (by omega) (by omega), ?_,
    ffield_eq_limb v (by omega) (by omega), ffield_eq_limb v (by omega) (by omega), ?_,
    ffield_eq_limb v (by omega) (by omega), ffield_eq_limb v (by omega) (by omega)⟩
  · rw [extractLsb'_limb_append v (3 * g) rfl (by omega)]
    exact ffield_eq_extractLsb' v (by omega)
  · rw [extractLsb'_limb_append v (3 * g + 1) rfl (by omega)]
    exact ffield_eq_extractLsb' v (by omega)

/-- A 52-bit field inside one limb: a shift, masked. -/
theorem dfield_eq_limb (v : Word576) (j i s : Nat) (h : 52 * j = 64 * i + s) (hs : s + 52 ≤ 64) :
    dfield v j = (limb v i >>> s).setWidth 52 := by
  rw [dfield, h, ← extractLsb'_limb v i hs]
  refine BitVec.eq_of_getLsbD_eq fun k hk => ?_
  simp [hk]

/-- Two limbs, the lower shifted right by `s` and the upper left by `64 - s`, hold the 64 bits from bit `s` of the
lower one. -/
theorem limb_shift_or (v : Word576) (i : Nat) {s t : Nat} (hs : s + t = 64) :
    limb v i >>> s ||| limb v (i + 1) <<< t = v.extractLsb' (64 * i + s) 64 := by
  refine BitVec.eq_of_getLsbD_eq fun k hk => ?_
  rcases Nat.lt_or_ge k t with hkt | hkt
  · have hlow : s + k < 64 := by omega
    simp [limb, hk, hkt, hlow, Nat.add_assoc]
  · have hhigh : ¬ s + k < 64 := by omega
    have hbit : 64 * (i + 1) + (k - t) = 64 * i + s + k := by omega
    simp [limb, hk, hkt.not_gt, hhigh, hbit]

/-- A 52-bit field across a limb boundary: the two shifts ORed and masked. -/
theorem dfield_eq_limb_shift_or (v : Word576) (j i s t : Nat) (h : 52 * j = 64 * i + s) (hs : s + t = 64) :
    dfield v j = (limb v i >>> s ||| limb v (i + 1) <<< t).setWidth 52 := by
  rw [dfield, h, limb_shift_or v i hs]
  refine BitVec.eq_of_getLsbD_eq fun k hk => ?_
  simp [hk, show k < 64 by omega]

/-- Settles O17: each field starts at bit `s` of a limb, and crosses into the next limb exactly when `s > 12`. -/
theorem doubleFieldLimbs : Obligations.DoubleFieldLimbs := by
  unfold Obligations.DoubleFieldLimbs
  intro v
  exact ⟨dfield_eq_limb v 0 0 0 rfl (by decide),
    dfield_eq_limb_shift_or v 1 0 52 12 rfl rfl,
    dfield_eq_limb_shift_or v 2 1 40 24 rfl rfl,
    dfield_eq_limb_shift_or v 3 2 28 36 rfl rfl,
    dfield_eq_limb_shift_or v 4 3 16 48 rfl rfl,
    dfield_eq_limb v 5 4 4 rfl (by decide),
    dfield_eq_limb_shift_or v 6 4 56 8 rfl rfl,
    dfield_eq_limb_shift_or v 7 5 44 20 rfl rfl,
    dfield_eq_limb_shift_or v 8 6 32 32 rfl rfl,
    dfield_eq_limb_shift_or v 9 7 20 44 rfl rfl,
    dfield_eq_limb v 10 8 8 rfl (by decide)⟩

end Sys2Proof.Machine
end

section
/-! SUPPORT. The number an output pattern stands for (spec/42_extract.md R116, R117, R121 to R125; the format is U11's,
PRESUMED). Both precisions are one construction: for `f` with top bit `h`, exponent field `b + h`, and as the fraction
field of `F` bits what `f`, shifted to bit `F`, leaves below that bit. -/

namespace Sys2Proof.Machine

open Sys2Proof.Safety

/-- The fraction field of `F` bits for `f > 0`: `f` shifted until its top bit is bit `F`, without that bit (R116, R124). -/
def fraction (F f : Nat) : Nat := f * 2 ^ (F - msb f) % 2 ^ F

theorem fraction_lt (F f : Nat) : fraction F f < 2 ^ F := Nat.mod_lt _ (by positivity)

theorem toNat_ne_zero {n : Nat} {f : BitVec n} (hf : f ≠ 0) : f.toNat ≠ 0 :=
  BitVec.toNat_ne_iff_ne.mpr hf

theorem msb_toNat_lt {n : Nat} {f : BitVec n} (hf : f ≠ 0) : msb f.toNat < n :=
  (Nat.log2_lt (toNat_ne_zero hf)).mpr f.isLt

/-- The implied bit above the fraction field restores the shifted `f`: the normalisation loses nothing. -/
theorem two_pow_add_fraction {F f : Nat} (hf : f ≠ 0) (hF : msb f ≤ F) :
    2 ^ F + fraction F f = f * 2 ^ (F - msb f) := by
  have hsplit : f * 2 ^ (F - msb f) = 2 ^ F + f % 2 ^ msb f * 2 ^ (F - msb f) := by
    calc f * 2 ^ (F - msb f) = (2 ^ msb f + f % 2 ^ msb f) * 2 ^ (F - msb f) := by rw [msb_split hf]
      _ = 2 ^ F + f % 2 ^ msb f * 2 ^ (F - msb f) := by rw [Nat.add_mul, ← pow_add, Nat.add_sub_cancel' hF]
  have hlow : f % 2 ^ msb f * 2 ^ (F - msb f) < 2 ^ F := by
    calc f % 2 ^ msb f * 2 ^ (F - msb f) < 2 ^ msb f * 2 ^ (F - msb f) := by gcongr; exact Nat.mod_lt _ (by positivity)
      _ = 2 ^ F := by rw [← pow_add, Nat.add_sub_cancel' hF]
  rw [fraction, hsplit, Nat.add_mod_left, Nat.mod_eq_of_lt hlow]

/-- The shifts, the mask and the OR of R116 and R124 put two fields side by side. -/
theorem shift_or_fraction {F mask : Nat} (hmask : mask = 2 ^ F - 1) (e f : Nat) :
    e <<< F ||| ((f <<< (F - msb f)) &&& mask) = e * 2 ^ F + fraction F f := by
  rw [hmask, Nat.and_two_pow_sub_one_eq_mod, Nat.shiftLeft_eq f, ← fraction, ← Nat.shiftLeft_add_eq_or_of_lt (fraction_lt F f),
    Nat.shiftLeft_eq]

/-- `v` is a pattern of sign 0, exponent field `e` of `E` bits and fraction field `m` of `F` bits (U11). -/
structure PatternFields {w : Nat} (F E : Nat) (v : BitVec w) (e m : Nat) : Prop where
  sign : v.getLsbD (F + E) = false
  exponent : (v.extractLsb' F E).toNat = e
  fraction : (v.extractLsb' 0 F).toNat = m

theorem patternFields_of_toNat {w F E e m : Nat} {v : BitVec w} (hv : v.toNat = e * 2 ^ F + m) (he : e < 2 ^ E)
    (hm : m < 2 ^ F) : PatternFields F E v e m where
  sign := by
    rw [← BitVec.testBit_toNat, hv]
    refine Nat.testBit_lt_two_pow ?_
    calc e * 2 ^ F + m < (e + 1) * 2 ^ F := by rw [Nat.succ_mul]; omega
      _ ≤ 2 ^ E * 2 ^ F := by gcongr; exact he
      _ = 2 ^ (F + E) := by rw [← pow_add, Nat.add_comm]
  exponent := by
    rw [BitVec.extractLsb'_toNat, hv, Nat.shiftRight_eq_div_pow, Nat.mul_comm, Nat.mul_add_div (by positivity),
      Nat.div_eq_of_lt hm, Nat.add_zero, Nat.mod_eq_of_lt he]
  fraction := by
    rw [BitVec.extractLsb'_toNat, hv, Nat.shiftRight_zero, Nat.mul_comm, Nat.mul_add_mod, Nat.mod_eq_of_lt hm]

/-- The fields of a single-precision pattern (R116): exponent `103 + h`. -/
theorem f32bits_fields {f : BitVec 24} (hf : f ≠ 0) :
    PatternFields 23 8 (f32bits f) (103 + msb f.toNat) (fraction 23 f.toNat) := by
  have hh := msb_toNat_lt hf
  have hm := fraction_lt 23 f.toNat
  have hmask : 0x7FFFFF = 2 ^ 23 - 1 := rfl
  refine patternFields_of_toNat ?_ (by omega) hm
  rw [f32bits, if_neg hf, BitVec.toNat_ofNat, shift_or_fraction hmask, Nat.mod_eq_of_lt (by omega)]

/-- The fields of a double-precision pattern (R124): exponent `971 + h`. -/
theorem f64bits_fields {f : BitVec 52} (hf : f ≠ 0) :
    PatternFields 52 11 (f64bits f) (971 + msb f.toNat) (fraction 52 f.toNat) := by
  have hh := msb_toNat_lt hf
  have hm := fraction_lt 52 f.toNat
  have hmask : 0xFFFFFFFFFFFFF = 2 ^ 52 - 1 := rfl
  refine patternFields_of_toNat ?_ (by omega) hm
  rw [f64bits, if_neg hf, BitVec.toNat_ofNat, shift_or_fraction hmask, Nat.mod_eq_of_lt (by omega)]

theorem f32bits_zero : f32bits 0 = 0 := rfl

theorem f64bits_zero : f64bits 0 = 0 := rfl

/-- The value of a normal binary32 pattern of sign 0. -/
theorem f32Value_of_fields {v : F32} {e m : Nat} (h : PatternFields 23 8 v e m) (he : e ≠ 0) :
    f32Value v = (2 ^ 23 + (m : ℚ)) * 2 ^ e / 2 ^ 150 := by
  rw [f32Value, show v.getLsbD 31 = false from h.sign, h.exponent, h.fraction, if_neg he, if_neg Bool.false_ne_true,
    one_mul]

/-- The value of a normal binary64 pattern of sign 0. -/
theorem f64Value_of_fields {v : F64} {e m : Nat} (h : PatternFields 52 11 v e m) (he : e ≠ 0) :
    f64Value v = (2 ^ 52 + (m : ℚ)) * 2 ^ e / 2 ^ 1075 := by
  rw [f64Value, show v.getLsbD 63 = false from h.sign, h.exponent, h.fraction, if_neg he, if_neg Bool.false_ne_true,
    one_mul]

theorem f32Value_zero : f32Value 0 = 0 := by simp [f32Value]

theorem f64Value_zero : f64Value 0 = 0 := by simp [f64Value]

/-- Significand times power of two: the shift of the fraction and the exponent `b + h` cancel. -/
theorem significand_mul_two_pow {F f : Nat} (b : Nat) (hf : f ≠ 0) (hF : msb f ≤ F) :
    (2 ^ F + (fraction F f : ℚ)) * 2 ^ (b + msb f) = f * 2 ^ (b + F) := by
  have hsig : (2 ^ F + fraction F f) * 2 ^ (b + msb f) = f * 2 ^ (b + F) := by
    rw [two_pow_add_fraction hf hF, Nat.mul_assoc, ← pow_add, show F - msb f + (b + msb f) = b + F by omega]
  exact_mod_cast hsig

/-- Powers of two cancel, however large. -/
theorem mul_two_pow_div (x : ℚ) (a n : Nat) : x * 2 ^ a / 2 ^ (a + n) = x / 2 ^ n := by
  rw [pow_add, mul_comm x, mul_div_mul_left x _ (by positivity)]

/-- R116: `f32bits f` stands for `f / 2^24`. -/
theorem f32Value_f32bits (f : BitVec 24) : f32Value (f32bits f) = (f.toNat : ℚ) / 2 ^ 24 := by
  by_cases hf : f = 0
  · rw [hf, f32bits_zero, f32Value_zero]
    simp
  · rw [f32Value_of_fields (f32bits_fields hf) (by omega),
      significand_mul_two_pow 103 (toNat_ne_zero hf) (Nat.le_of_lt_succ (msb_toNat_lt hf))]
    exact mul_two_pow_div _ 126 24

/-- R124: `f64bits f` stands for `f / 2^52`. -/
theorem f64Value_f64bits (f : BitVec 52) : f64Value (f64bits f) = (f.toNat : ℚ) / 2 ^ 52 := by
  by_cases hf : f = 0
  · rw [hf, f64bits_zero, f64Value_zero]
    simp
  · rw [f64Value_of_fields (f64bits_fields hf) (by omega),
      significand_mul_two_pow 971 (toNat_ne_zero hf) (msb_toNat_lt hf).le]
    exact mul_two_pow_div _ 1023 52

/-- R117: a single-precision pattern is `+0.0` or normal with exponent field 103 to 126. -/
theorem f32bits_zero_or_normal (f : BitVec 24) : f32bits f = 0 ∨
    (103 ≤ ((f32bits f).extractLsb' 23 8).toNat ∧ ((f32bits f).extractLsb' 23 8).toNat ≤ 126 ∧
      (f32bits f).getLsbD 31 = false) := by
  by_cases hf : f = 0
  · exact .inl (by rw [hf, f32bits_zero])
  · have hh := msb_toNat_lt hf
    obtain ⟨hsign, hexp, -⟩ := f32bits_fields hf
    exact .inr ⟨by omega, by omega, hsign⟩

/-- R125: a double-precision pattern is `+0.0` or normal with exponent field 971 to 1022. -/
theorem f64bits_zero_or_normal (f : BitVec 52) : f64bits f = 0 ∨
    (971 ≤ ((f64bits f).extractLsb' 52 11).toNat ∧ ((f64bits f).extractLsb' 52 11).toNat ≤ 1022 ∧
      (f64bits f).getLsbD 63 = false) := by
  by_cases hf : f = 0
  · exact .inl (by rw [hf, f64bits_zero])
  · have hh := msb_toNat_lt hf
    obtain ⟨hsign, hexp, -⟩ := f64bits_fields hf
    exact .inr ⟨by omega, by omega, hsign⟩

theorem f32Finite_f32bits (f : BitVec 24) : f32Finite (f32bits f) = true := by
  obtain h | ⟨-, hexp, -⟩ := f32bits_zero_or_normal f
  · rw [h]; decide
  · exact decide_eq_true (by omega)

theorem f64Finite_f64bits (f : BitVec 52) : f64Finite (f64bits f) = true := by
  obtain h | ⟨-, hexp, -⟩ := f64bits_zero_or_normal f
  · rw [h]; decide
  · exact decide_eq_true (by omega)

/-- A field of `n` bits, read as a fraction, lies in `[0, 1)`. -/
theorem field_div_mem_unit {n : Nat} (f : BitVec n) : 0 ≤ (f.toNat : ℚ) / 2 ^ n ∧ (f.toNat : ℚ) / 2 ^ n < 1 := by
  refine ⟨by positivity, (div_lt_one (by positivity)).mpr ?_⟩
  exact_mod_cast f.isLt

/-- The fraction determines the field. -/
theorem field_eq_of_div_eq {n : Nat} {f g : BitVec n} (h : (f.toNat : ℚ) / 2 ^ n = (g.toNat : ℚ) / 2 ^ n) : f = g := by
  refine BitVec.eq_of_toNat_eq ?_
  exact_mod_cast (div_left_inj' (by positivity)).mp h

/-- Different fields give different patterns, for the patterns stand for different numbers (R117). -/
theorem f32bits_injective : Function.Injective f32bits := fun f g h =>
  field_eq_of_div_eq (by rw [← f32Value_f32bits, h, f32Value_f32bits])

/-- Different fields give different patterns, for the patterns stand for different numbers (R125). -/
theorem f64bits_injective : Function.Injective f64bits := fun f g h =>
  field_eq_of_div_eq (by rw [← f64Value_f64bits, h, f64Value_f64bits])

/-- Settles O18: zero apart, the exponent `103 + h` undoes the shift by `23 - h`. -/
theorem singlePatternExact : Obligations.SinglePatternExact := by
  unfold Obligations.SinglePatternExact
  exact fun f => ⟨f32Finite_f32bits f, f32Value_f32bits f⟩

/-- Settles O19, from the exact value and the fields of the pattern. -/
theorem singlePatternRange : Obligations.SinglePatternRange := by
  unfold Obligations.SinglePatternRange
  refine ⟨fun f => ?_, f32bits_zero_or_normal, fun _ _ h => f32bits_injective h⟩
  rw [f32Value_f32bits]
  exact field_div_mem_unit f

/-- The construction step is exponent field `0x3FF` and the field as fraction (R121). -/
theorem onePlus_fields (f : BitVec 52) : PatternFields 52 11 (onePlus f) 1023 f.toNat := by
  refine patternFields_of_toNat ?_ (by decide) f.isLt
  have hwide : f.toNat % 2 ^ 64 = f.toNat := Nat.mod_eq_of_lt (f.isLt.trans (by decide))
  rw [onePlus, BitVec.toNat_or, BitVec.toNat_setWidth, hwide, ← Nat.shiftLeft_eq,
    Nat.shiftLeft_add_eq_or_of_lt f.isLt]
  rfl

/-- The constructed pattern stands for `1 + f / 2^52` (R123). -/
theorem f64Value_onePlus (f : BitVec 52) : f64Value (onePlus f) = 1 + (f.toNat : ℚ) / 2 ^ 52 := by
  rw [f64Value_of_fields (onePlus_fields f) (by decide), ← div_self (pow_ne_zero 52 two_ne_zero), ← add_div]
  exact mul_two_pow_div _ 1023 52

/-- Subtracting 1.0 from the constructed pattern gives `f64bits` of the field (R121, R124). -/
theorem subOne_onePlus (f : BitVec 52) : subOne (onePlus f) = f64bits f := by
  rw [subOne, BitVec.eq_of_toNat_eq (onePlus_fields f).fraction]

/-- Settles O20: the subtraction drops the 1, and `f64bits` stands for exactly what is left. -/
theorem doublePatternExact : Obligations.DoublePatternExact := by
  unfold Obligations.DoublePatternExact
  refine fun f => ⟨f64Value_onePlus f, subOne_onePlus f, f64Finite_f64bits f, ?_, f64Value_f64bits f⟩
  rw [subOne_onePlus, f64Value_onePlus, f64Value_f64bits, add_sub_cancel_left]

/-- Settles O21, from the exact value and the fields of the pattern. -/
theorem doublePatternRange : Obligations.DoublePatternRange := by
  unfold Obligations.DoublePatternRange
  refine ⟨fun f => ?_, f64bits_zero_or_normal, fun _ _ h => f64bits_injective h⟩
  rw [f64Value_f64bits]
  exact field_div_mem_unit f

end Sys2Proof.Machine
end

section
/-! SUPPORT. What each element of a batch is made from, and how much of the state a batch tells (spec/42_extract.md R112,
R113, R115, R117, R120, R125, R126). -/

namespace Sys2Proof.Machine

theorem extractF_getElem (v : Word576) {k : Nat} (h : k < 24) : (extractF v)[k]'h = f32bits (ffield v k) :=
  Vector.getElem_ofFn h

/-- The construction and the subtraction cancel in every element (R121, R124). -/
theorem extractD_getElem (v : Word576) {j : Nat} (h : j < 11) : (extractD v)[j]'h = f64bits (dfield v j) :=
  (Vector.getElem_ofFn h).trans (subOne_onePlus _)

/-- A slice as a quotient of the number in the register. -/
theorem extractLsb'_eq_ofNat_div {w : Nat} (v : BitVec w) (s n : Nat) :
    v.extractLsb' s n = BitVec.ofNat n (v.toNat / 2 ^ s) :=
  congrArg (BitVec.ofNat n) (Nat.shiftRight_eq_div_pow _ _)

/-- Settles O15: the fields as quotients, and the elements as their patterns. -/
theorem batchElements : Obligations.BatchElements := by
  unfold Obligations.BatchElements
  refine ⟨fun v k h => ?_, fun v j h => ?_⟩
  · rw [extractF_getElem v h, ffield, extractLsb'_eq_ofNat_div]
  · rw [extractD_getElem v h, dfield, extractLsb'_eq_ofNat_div]

theorem extractLsb'_eq_iff {w s n : Nat} {v v' : BitVec w} :
    v.extractLsb' s n = v'.extractLsb' s n ↔ ∀ i < n, v.getLsbD (s + i) = v'.getLsbD (s + i) := by
  rw [BitVec.eq_of_getLsbD_eq_iff]
  refine forall₂_congr fun i hi => ?_
  simp [hi]

/-- Adjacent slices of `n` bits, `m` of them, agree exactly when the low `n * m` bits do. -/
theorem slices_eq_iff {w n m : Nat} (v v' : BitVec w) :
    (∀ k < m, v.extractLsb' (n * k) n = v'.extractLsb' (n * k) n) ↔ v.extractLsb' 0 (n * m) = v'.extractLsb' 0 (n * m) := by
  simp only [extractLsb'_eq_iff, Nat.zero_add]
  constructor
  · intro h i hi
    have hn : 0 < n := Nat.pos_of_mul_pos_right (Nat.zero_lt_of_lt hi)
    have hbit := h (i / n) (Nat.div_lt_of_lt_mul hi) (i % n) (Nat.mod_lt i hn)
    rwa [Nat.div_add_mod] at hbit
  · intro h k hk i hi
    refine h (n * k + i) ?_
    calc n * k + i < n * (k + 1) := by rw [Nat.mul_succ]; omega
      _ ≤ n * m := Nat.mul_le_mul_left n hk

/-- Two batches agree exactly when all 24 fields do (R112, R117). -/
theorem extractF_eq_iff (v v' : Word576) : extractF v = extractF v' ↔ ∀ k < 24, ffield v k = ffield v' k := by
  rw [Vector.ext_iff]
  refine forall₂_congr fun k hk => ?_
  rw [extractF_getElem v hk, extractF_getElem v' hk, f32bits_injective.eq_iff]

/-- Two batches agree exactly when all 11 fields do (R120, R125). -/
theorem extractD_eq_iff (v v' : Word576) : extractD v = extractD v' ↔ ∀ j < 11, dfield v j = dfield v' j := by
  rw [Vector.ext_iff]
  refine forall₂_congr fun j hj => ?_
  rw [extractD_getElem v hj, extractD_getElem v' hj, f64bits_injective.eq_iff]

/-- Settles O22: 24 fields of 24 bits are the whole state, 11 fields of 52 bits its low 572 bits. -/
theorem batchDeterminesState : Obligations.BatchDeterminesState := by
  unfold Obligations.BatchDeterminesState
  refine ⟨fun v v' h => ?_, fun v v' => ?_⟩
  · have hall : v.extractLsb' 0 576 = v'.extractLsb' 0 576 :=
      (slices_eq_iff (n := 24) (m := 24) v v').mp ((extractF_eq_iff v v').mp h)
    rwa [BitVec.extractLsb'_eq_self, BitVec.extractLsb'_eq_self] at hall
  · exact (extractD_eq_iff v v').trans (slices_eq_iff (n := 52) (m := 11) v v')

end Sys2Proof.Machine
end

section
/-! SUPPORT. The bulk reader away from its closed form (spec/43_bulk_reader.md R143, R144, R145, R148): reads that make no
draw, reads of zero elements, and requests that are refused. -/

namespace Sys2Proof.Machine

open Sys2Proof.Safety

/-- Settles O25: the drain phase alone serves such a READ. -/
theorem readFromBuffer : Obligations.ReadFromBuffer := by
  unfold Obligations.ReadFromBuffer
  constructor
  · intro n s hs hn
    rw [exec_eq_execWith, execWith, execReadf_eq_readAnswer, whenSeeded_of_seeded hs,
      readRun_small extractF s.a n.toNat (startF s) hn]
    rfl
  · intro n s hs hn
    rw [exec_eq_execWith, execWith, execReadd_eq_readAnswer, whenSeeded_of_seeded hs,
      readRun_small extractD s.a n.toNat (startD s) hn]
    rfl

/-- Settles O32: a READ leaves the other reader's cursor and buffer, and a READ that leftover values cover reads nothing
else. -/
theorem readersBufferSeparately : Obligations.ReadersBufferSeparately := by
  unfold Obligations.ReadersBufferSeparately
  constructor
  · intro n m s hs hx ha hm
    exact ⟨_, _, _, readdResult n s hs hx ha, readFromBuffer.1 m _ hs hm, readFromBuffer.1 m s hs hm,
      (newElems_of rfl).trans (newElems_of rfl).symm⟩
  · intro n m s hs hx ha hm
    exact ⟨_, _, _, readfResult n s hs hx ha, readFromBuffer.2 m _ hs hm, readFromBuffer.2 m s hs hm,
      (newElems_of rfl).trans (newElems_of rfl).symm⟩

/-- A READ of zero elements on a seeded core completes and does nothing else (R144). -/
theorem exec_read_zero {i : Instr} (hi : i = .readf 0 ∨ i = .readd 0) {s : State} (hs : s.seeded = true) :
    exec i s = .next (complete s) := by
  rcases hi with rfl | rfl
  · rw [readFromBuffer.1 0 s hs (Nat.zero_le _)]
    simp [complete, outWritesFrom]
  · rw [readFromBuffer.2 0 s hs (Nat.zero_le _)]
    simp [complete, outWritesFrom]

/-- The command port is open only between commands (R40). -/
theorem busy_of_portOpen {s : State} (h : portOpen s = true) : s.busy = false := by
  rw [portOpen, Bool.and_eq_true, Bool.not_eq_true'] at h
  exact h.1

/-- Settles O26: the open port runs the READ, which completes at once on a seeded core and faults on an unseeded one. -/
theorem readOfZero : Obligations.ReadOfZero := by
  unfold Obligations.ReadOfZero
  intro s w rest hh hp hw
  obtain ⟨i, hwi, hi⟩ : ∃ i, decode w = .ok i ∧ (i = .readf 0 ∨ i = .readd 0) := by
    rcases hw with hw | hw
    · exact ⟨_, hw, .inl rfl⟩
    · exact ⟨_, hw, .inr rfl⟩
  rw [stepRunsDecodedCommand s w rest i hh hp hwi]
  constructor
  · intro hs
    rw [exec_read_zero (s := { s with host := rest, busy := true }) hi hs, complete, busy_of_portOpen hp]
  · intro hs
    have hseed : isSeed i = false := by rcases hi with rfl | rfl <;> rfl
    rw [exec_eq_execWith, execWith_of_unseeded (s := { s with host := rest, busy := true }) Config.params hs hseed,
      raiseFault, busy_of_portOpen hp]

/-- READF at its refused first draw: the leftover values are out, and MulmodPrecondition is raised (R143, R185). -/
theorem execReadf_refused {n : Operand} {s : State} (hs : s.seeded = true)
    (hr : ¬(isResidue s.x = true ∧ isResidue s.a = true)) (hn : 24 - s.fcur.val < n.toNat) :
    execReadf n s = .next (raiseMulmod (storeF s ⟨s.x, Fin.ofNat 25 24, s.fbuf, s.fbuf.toList.drop s.fcur.val⟩)) := by
  rw [execReadf_eq_readAnswer, whenSeeded_of_seeded hs, readRun_refused extractF s.a n.toNat (startF s) hn hr]
  rfl

/-- READD at its refused first draw (R143, R185). -/
theorem execReadd_refused {n : Operand} {s : State} (hs : s.seeded = true)
    (hr : ¬(isResidue s.x = true ∧ isResidue s.a = true)) (hn : 11 - s.dcur.val < n.toNat) :
    execReadd n s = .next (raiseMulmod (storeD s ⟨s.x, Fin.ofNat 12 11, s.dbuf, s.dbuf.toList.drop s.dcur.val⟩)) := by
  rw [execReadd_eq_readAnswer, whenSeeded_of_seeded hs, readRun_refused extractD s.a n.toNat (startD s) hn hr]
  rfl

/-- JUMP at its refused product, whatever power of `A_BASE` the other operand is (R165, R185). -/
theorem jumpWith_refused (P : Params) (n : Operand) {s : State} (hs : s.seeded = true) (hx : isResidue s.x = false) :
    jumpWith P n s = .next (raiseMulmod s) := by
  rw [jumpWith, whenSeeded_of_seeded hs, powMod_base, Option.bind_some, (mulMod_eq_none_iff _ _).mpr (.inl hx)]

/-- Settles O33: each of the three commands ends in the fault entry, which keeps SEEDED and the transcript. -/
theorem refusedRequestFaults : Obligations.RefusedRequestFaults := by
  unfold Obligations.RefusedRequestFaults
  refine ⟨fun n s hs hr hn => ?_, fun n s hs hr hn => ?_, fun n s hs hx => ?_⟩
  · exact ⟨_, execReadf_refused hs hr hn, rfl, rfl, rfl, hs, rfl⟩
  · exact ⟨_, execReadd_refused hs hr hn, rfl, rfl, rfl, hs, rfl⟩
  · exact ⟨_, jumpWith_refused Config.params n hs hx, rfl, rfl, rfl, hs, rfl⟩

end Sys2Proof.Machine
end

section
/-! SUPPORT. The output stream of consecutive READs of one precision (spec/43_bulk_reader.md R145, R146, R147), once for
both readers. -/

namespace Sys2Proof.Machine

open Sys2Proof.Safety

variable {w B : Nat}

/-- The cursor register holds the cursor's closed form (R24, R25). -/
theorem ofNat_cursorEnd_val (hB : 0 < B) (c : Fin (B + 1)) (n : Nat) :
    (Fin.ofNat (B + 1) (cursorEnd B c.val n)).val = cursorEnd B c.val n :=
  Nat.mod_eq_of_lt (Nat.lt_succ_iff.mpr (cursorEnd_le hB (Nat.lt_succ_iff.mp c.isLt) n))

theorem elems_append_outWritesFrom (l : List OutWrite) (vs : List OutElem) :
    elems (l ++ outWritesFrom 0 vs) = elems l ++ vs := by
  rw [elems_append, outWritesFrom_elems]

/-- What was delivered, from the elements of both transcripts. -/
theorem newElems_of_elems {s t : State} {l : List OutElem} (h : elems t.out = elems s.out ++ l) : newElems s t = l := by
  have hlen : s.out.length = (elems s.out).length := (List.length_map _).symm
  rw [newElems, elems, List.map_drop, ← elems, h, hlen, List.drop_left]

/-- The parts in which READF and READD differ (R140): the command, how a pattern leaves the output port, the extraction,
element `k` of a batch made from `v`, and where the cursor and the buffer are kept. -/
structure Reader (w B : Nat) where
  command : Operand → Instr
  elem : BitVec w → OutElem
  extract : Word576 → Vector (BitVec w) B
  field : Word576 → Nat → BitVec w
  cur : State → Fin (B + 1)
  buf : State → Vector (BitVec w) B

namespace Reader

/-- The reader of READF (R141). -/
def single : Reader 32 24 :=
  { command := .readf, elem := .single, extract := extractF, field := fun v k => f32bits (ffield v k),
    cur := State.fcur, buf := State.fbuf }

/-- The reader of READD (R142). -/
def double : Reader 64 11 :=
  { command := .readd, elem := .double, extract := extractD, field := fun v k => f64bits (dfield v k),
    cur := State.dcur, buf := State.dbuf }

/-- What a READ of `n` elements by this reader delivers from the state `s`, in closed form (R145, R146). -/
def output (R : Reader w B) (n : Nat) (s : State) : List OutElem :=
  (readOut R.extract s.x s.a (R.buf s) (R.cur s).val n).map R.elem

/-- The state `t` is one that a READ of `n` elements leaves of `s`, as far as this reader's stream goes (R145). -/
structure Reads (R : Reader w B) (n : Nat) (s t : State) : Prop where
  seeded : t.seeded = true
  a : t.a = s.a
  x : t.x = stateAfter s.x s.a (advanceCount B (R.cur s).val n)
  cur : (R.cur t).val = cursorEnd B (R.cur s).val n
  buf : R.buf t = bufferEnd R.extract s.x s.a (R.buf s) (R.cur s).val n
  out : elems t.out = elems s.out ++ R.output n s

/-- What the stream of a reader rests on: its command completes with the closed form on a seeded core of residues, and
SEED leaves its buffer empty. -/
structure Lawful (R : Reader w B) : Prop where
  batch_pos : 0 < B
  extract_getElem : ∀ (v : Word576) (k : Nat) (hk : k < B), (R.extract v)[k] = R.field v k
  seed_empties : ∀ (a x : Word576) (s : State), (R.cur (seedStore a x s)).val = B
  completes : ∀ (n : Operand) (s : State), s.seeded = true → isResidue s.x = true → isResidue s.a = true →
    ∃ t, exec (R.command n) s = .next t ∧ R.Reads n.toNat s t

theorem cur_le (R : Reader w B) (s : State) : (R.cur s).val ≤ B := Nat.lt_succ_iff.mp (R.cur s).isLt

theorem lawful_single : single.Lawful where
  batch_pos := by decide
  extract_getElem v _ hk := extractF_getElem v hk
  seed_empties _ _ _ := rfl
  completes n s hs hx ha :=
    ⟨_, readfResult n s hs hx ha, hs, rfl, rfl, ofNat_cursorEnd_val (by decide) s.fcur n.toNat, rfl,
      elems_append_outWritesFrom _ _⟩

theorem lawful_double : double.Lawful where
  batch_pos := by decide
  extract_getElem v _ hk := extractD_getElem v hk
  seed_empties _ _ _ := rfl
  completes n s hs hx ha :=
    ⟨_, readdResult n s hs hx ha, hs, rfl, rfl, ofNat_cursorEnd_val (by decide) s.dcur n.toNat, rfl,
      elems_append_outWritesFrom _ _⟩

variable {R : Reader w B} {n m : Nat} {s t u v : State}

/-- A READ leaves a core that holds residues again (R23). -/
theorem Reads.x_isResidue (h : R.Reads n s t) : isResidue t.x = true := h.x ▸ stateAfter_isResidue _ _ _

/-- The output of one READ is that of two with the counts that make up its own (R146). -/
theorem Reads.output_add (hB : 0 < B) (hx : isResidue s.x = true) (h : R.Reads n s t) :
    R.output (n + m) s = R.output n s ++ R.output m t := by
  rw [output, readOut_append hB R.extract s.a hx (R.buf s) (R.cur_le s), List.map_append, output, output,
    h.x, h.a, h.cur, h.buf]

/-- Two READs leave what one READ of both counts leaves (R146). -/
theorem Reads.batching (hB : 0 < B) (hx : isResidue s.x = true) (h₁ : R.Reads n s t) (h₂ : R.Reads m t u)
    (h : R.Reads (n + m) s v) :
    newElems s u = newElems s v ∧ u.x = v.x ∧ R.cur u = R.cur v ∧ sameFrom (R.cur v).val (R.buf u) (R.buf v) := by
  refine ⟨?_, ?_, ?_, ?_⟩
  · have hu : elems u.out = elems s.out ++ R.output (n + m) s := by
      rw [h₂.out, h₁.out, List.append_assoc, h₁.output_add hB hx]
    rw [newElems_of_elems hu, newElems_of_elems h.out]
  · rw [h₂.x, h₁.x, h₁.a, h₁.cur, stateAfter_add, advance_add hB (R.cur_le s), h.x]
  · apply Fin.ext
    rw [h₂.cur, h₁.cur, cursor_add hB (R.cur_le s), h.cur]
  · rw [h₂.buf, h₁.x, h₁.a, h₁.buf, h₁.cur, h.buf, h.cur]
    exact buffer_add hB R.extract s.a hx (R.buf s) (R.cur_le s) n m

/-- Reading `n₁`, then `n₂`, against reading both at once (R146). -/
theorem Lawful.batching (hR : R.Lawful) (n₁ n₂ : Operand) (s : State) (hs : s.seeded = true) (hx : isResidue s.x = true)
    (ha : isResidue s.a = true) (hn : n₁.toNat + n₂.toNat < 2 ^ 64) :
    ∃ t₁ t₂ t, exec (R.command n₁) s = .next t₁ ∧ exec (R.command n₂) t₁ = .next t₂ ∧
      exec (R.command (n₁ + n₂)) s = .next t ∧ newElems s t₂ = newElems s t ∧ t₂.x = t.x ∧ R.cur t₂ = R.cur t ∧
      sameFrom (R.cur t).val (R.buf t₂) (R.buf t) := by
  obtain ⟨t₁, e₁, h₁⟩ := hR.completes n₁ s hs hx ha
  obtain ⟨t₂, e₂, h₂⟩ := hR.completes n₂ t₁ h₁.seeded h₁.x_isResidue (h₁.a ▸ ha)
  obtain ⟨t, e, h⟩ := hR.completes (n₁ + n₂) s hs hx ha
  rw [BitVec.toNat_add_of_lt hn] at h
  exact ⟨t₁, t₂, t, e₁, e₂, e, h₁.batching hR.batch_pos hx h₂ h⟩

/-- A list of READs delivers what one READ of the sum of their counts would, also beyond 64 bits (R146). -/
theorem Lawful.execAll_output (hR : R.Lawful) (ns : List Operand) {s : State} (hs : s.seeded = true)
    (hx : isResidue s.x = true) (ha : isResidue s.a = true) :
    ∃ t, execAll (ns.map R.command) s = some t ∧
      elems t.out = elems s.out ++ R.output (ns.map BitVec.toNat).sum s := by
  induction ns generalizing s with
  | nil => exact ⟨s, rfl, (List.append_nil _).symm⟩
  | cons n ns ih =>
    obtain ⟨t, e, h⟩ := hR.completes n s hs hx ha
    obtain ⟨u, hu, hout⟩ := ih h.seeded h.x_isResidue (h.a ▸ ha)
    refine ⟨u, ?_, ?_⟩
    · rw [List.map_cons, execAll, e]
      exact hu
    · rw [hout, h.out, List.append_assoc, ← h.output_add hR.batch_pos hx, List.map_cons, List.sum_cons]

/-- From an empty buffer everything delivered is fresh: element `j` is field `j mod B` of the state after `1 + j div B`
draws (R145, R147). -/
theorem Lawful.output_of_empty (hR : R.Lawful) (hc : (R.cur s).val = B) (n : Nat) :
    R.output n s = (List.range n).map fun j => R.elem (R.field (stateAfter s.x s.a (1 + j / B)) (j % B)) := by
  have hfresh : ∀ j, fresh R.extract s.x s.a j = R.field (stateAfter s.x s.a (1 + j / B)) (j % B) := by
    intro j
    have hj : j % B < B := Nat.mod_lt j hR.batch_pos
    rw [fresh, ← hR.extract_getElem _ _ hj, List.getD_eq_getElem _ _ (by rwa [Vector.length_toList]),
      Vector.getElem_toList]
  rw [output, hc, readOut_eq _ _ _ _ _ _ le_rfl, List.drop_of_length_le (Vector.length_toList).le, List.take_nil,
    List.nil_append, Nat.sub_self, Nat.sub_zero, List.map_map]
  exact List.map_congr_left fun j _ => congrArg R.elem (hfresh j)

/-- The stream of one reader after SEED (R146, R147, R162). -/
theorem Lawful.stream_after_seed (hR : R.Lawful) (k p : Operand) (ns : List Operand) (s : State) :
    ∃ t₀ t, exec (.seed k p) s = .next t₀ ∧ execAll (ns.map R.command) t₀ = some t ∧
      newElems t₀ t = (List.range (ns.map BitVec.toNat).sum).map fun j =>
        R.elem (R.field (stateAfter (powNat Config.params.base (p.toNat * 2 ^ 96 * k.toNat))
          (powNat Config.params.base p.toNat) (1 + j / B)) (j % B)) := by
  obtain ⟨t, ht, hout⟩ := hR.execAll_output ns
    (s := seedStore (powNat Config.params.base p.toNat) (powNat Config.params.base (p.toNat * 2 ^ 96 * k.toNat)) s)
    rfl (powNat_isResidue _ _) (powNat_isResidue _ _)
  exact ⟨_, t, seedWith_eq Config.params k p s, ht,
    (newElems_of_elems hout).trans (hR.output_of_empty (hR.seed_empties _ _ s) _)⟩

end Reader

/-- Settles O28: the closed forms of READF compose. -/
theorem readfBatching : Obligations.ReadfBatching := by
  unfold Obligations.ReadfBatching
  exact Reader.lawful_single.batching

/-- Settles O29: the closed forms of READD compose. -/
theorem readdBatching : Obligations.ReaddBatching := by
  unfold Obligations.ReaddBatching
  exact Reader.lawful_double.batching

/-- Settles O30: after SEED the reader of READF has nothing left over, and its READs continue one another. -/
theorem singleStreamAfterSeed : Obligations.SingleStreamAfterSeed := by
  unfold Obligations.SingleStreamAfterSeed
  exact Reader.lawful_single.stream_after_seed

/-- Settles O31: after SEED the reader of READD has nothing left over, and its READs continue one another. -/
theorem doubleStreamAfterSeed : Obligations.DoubleStreamAfterSeed := by
  unfold Obligations.DoubleStreamAfterSeed
  exact Reader.lawful_double.stream_after_seed

end Sys2Proof.Machine
end

section
/-! SUPPORT. The configuration commands in closed form (spec/44_config.md R161 to R171): SEED and its corner cases,
SETSKIP, SELPRIM with AddMod13, and what one of them leaves of another. -/

namespace Sys2Proof.Machine

open Sys2Proof.Safety

/-- What SEED writes, field by field (R161). -/
theorem seedStore_eq (a x : Word576) (s : State) :
    seedStore a x s = { s with a := a, x := x, fcur := 24, dcur := 11, seeded := true, busy := false } := rfl

/-- Settles O34: the four exponentiations of SEED have closed forms, so it completes. -/
theorem seedResult : Obligations.SeedResult := by
  unfold Obligations.SeedResult
  intro k p s
  rw [exec_eq_execWith, execWith, seedWith_eq, seedStore_eq]

/-- The two registers that any completion of SEED leaves (R161, R162). -/
theorem exec_seed_regs {k p : Operand} {s t : State} (h : exec (.seed k p) s = .next t) :
    t.a = powNat Config.params.base p.toNat ∧ t.x = powNat Config.params.base (p.toNat * 2 ^ 96 * k.toNat) := by
  rw [seedResult k p s] at h
  obtain rfl := Host.Outcome.next.inj h
  exact ⟨rfl, rfl⟩

theorem operand_zero_toNat : (0 : Operand).toNat = 0 := rfl

theorem operand_one_toNat : (1 : Operand).toNat = 1 := rfl

theorem powNat_zero (b : Word576) : powNat b 0 = residueOne := by
  rw [powNat, pow_zero, residueOne_eq]

theorem powNat_one {b : Word576} (hb : isResidue b = true) : powNat b 1 = b := by
  rw [powNat, pow_one, residueOf_self hb]

/-- Draws from a power of `b` with a power of `b` as the multiplier (R102). -/
theorem stateAfter_powNat (b : Word576) (m n k : Nat) :
    stateAfter (powNat b m) (powNat b n) k = powNat b (m + n * k) := by
  rw [powNat, powNat, powNat, stateAfter_residueOf, ← pow_mul, ← pow_add]

/-- Settles O35: a zero factor makes the exponent of `A_BASE` zero, and the next seed adds `p * 2^96` to it. -/
theorem seedCornerCases : Obligations.SeedCornerCases := by
  unfold Obligations.SeedCornerCases
  refine ⟨fun p s t h => ?_, fun k s t h => ?_, fun k s t h => ?_, fun k p s t t' hk h h' => ?_⟩
  · rw [(exec_seed_regs h).2, operand_zero_toNat, Nat.mul_zero, powNat_zero]
  · obtain ⟨ha, hx⟩ := exec_seed_regs h
    rw [ha, hx, operand_zero_toNat, Nat.zero_mul, Nat.zero_mul, powNat_zero]
    exact ⟨rfl, rfl⟩
  · rw [(exec_seed_regs h).1, operand_one_toNat, powNat_one (isResidue_base _)]
  · obtain ⟨ha, hx⟩ := exec_seed_regs h
    have hk1 : (k + 1).toNat = k.toNat + 1 := BitVec.toNat_add_of_lt hk
    rw [(exec_seed_regs h').2, ha, hx, stateAfter_powNat, hk1, Nat.mul_succ]

/-- SETSKIP on a seeded core, field by field (R168). -/
theorem execWith_setskip (P : Params) (n : Operand) {s : State} (hs : s.seeded = true) :
    execWith P (.setskip n) s = .next { s with a := powNat P.base n.toNat, busy := false } :=
  setSkipWith_eq P n hs

/-- SELPRIM on a seeded core, field by field (R169, R170). -/
theorem execWith_selprim (P : Params) {s : State} (hs : s.seeded = true) :
    execWith P .selprim s = .next { s with a := residueOf (P.base.toNat ^ 2048 + 13), busy := false } :=
  selPrimWith_eq P hs

/-- Settles O40: SETSKIP of the core's own parameters. -/
theorem setSkipResult : Obligations.SetSkipResult := by
  unfold Obligations.SetSkipResult
  intro n s hs
  rw [exec_eq_execWith, execWith_setskip _ n hs]

theorem residueOne_toNat : residueOne.toNat = 1 := by
  rw [residueOne_eq, residueOf_toNat, Nat.mod_eq_of_lt one_lt_modulus]

theorem residueOf_fourteen : residueOf 14 = 14 := by decide +kernel

/-- Settles O41: SELPRIM of the core's own parameters, and a power of ONE where `A_BASE` is ONE. -/
theorem selPrimResult : Obligations.SelPrimResult := by
  unfold Obligations.SelPrimResult
  constructor
  · intro s hs
    rw [exec_eq_execWith, execWith_selprim _ hs]
  · intro P s hs hP
    rw [execWith_selprim P hs, hP, residueOne_toNat, one_pow, residueOf_fourteen]

/-- AddMod13 as an addition modulo `M` (R170). -/
theorem addMod13_toNat {t : Word576} (ht : isResidue t = true) : (addMod13 t).toNat = (t.toNat + 13) % modulus := by
  rw [addMod13_eq ht, residueOf_toNat, primAddend]

/-- A sum that reaches the modulus exceeds it by less than the addend. -/
theorem add_mod_of_le_add {m k c : Nat} (hk : k < m) (hc : c < m) (h : m ≤ k + c) :
    (k + c) % m = k + c - m ∧ k + c - m < c := by
  rw [← ite_sub_eq_add_mod hk hc, if_pos h]
  omega

/-- Settles O42: the sum is below `2 M`, so one subtraction reduces it; the spec's examples are computed. -/
theorem addModThirteen : Obligations.AddModThirteen := by
  unfold Obligations.AddModThirteen
  refine ⟨fun t ht => ?_, by decide +kernel, by decide +kernel, by decide +kernel, by decide +kernel⟩
  have hlt : t.toNat < modulus := (isResidue_iff t).mp ht
  rw [addMod13_toNat ht]
  refine ⟨rfl, fun hlo => Nat.mod_eq_of_lt (Nat.add_lt_of_lt_sub hlo), fun hhi => ?_⟩
  obtain ⟨hsub, hle⟩ := add_mod_of_le_add hlt (by decide) (Nat.sub_le_iff_le_add.mp hhi)
  exact ⟨hsub, hsub ▸ Nat.le_of_lt_succ hle⟩

/-- Settles O44: SETSKIP and SELPRIM write `A` alone, from `A_BASE` alone, and JUMP neither reads nor writes `A`. -/
theorem configCommandsCommute : Obligations.ConfigCommandsCommute := by
  unfold Obligations.ConfigCommandsCommute
  intro P n k s hs hx
  constructor
  · exact ⟨_, _, _, execWith_setskip P n hs, jumpResult.2 P k _ hs hx, jumpResult.2 P k s hs hx,
      execWith_setskip P n hs⟩
  · refine ⟨_, execWith_selprim P hs, execWith_selprim P hs, ?_⟩
    exact Eq.trans (execWith_setskip P n hs) (execWith_setskip P n hs).symm

end Sys2Proof.Machine
end

section
/-! SUPPORT. JUMP against draws and buffered values (spec/44_config.md R165 to R167, spec/70_reset_and_hazards.md R203,
R204): jumps add up, a JUMP replaces discarded batches, and leftover values outlive the configuration commands. -/

namespace Sys2Proof.Machine

open Sys2Proof.Safety

/-- Settles O37: a JUMP is as many draws with the multiplier `A_BASE`, and draws add up. -/
theorem jumpsAdd : Obligations.JumpsAdd := by
  unfold Obligations.JumpsAdd
  intro P i j s hs hx
  constructor
  · refine ⟨_, _, jumpResult.2 P i s hs hx, jumpResult.2 P j _ hs (stateAfter_isResidue _ _ _), ?_⟩
    exact stateAfter_add s.x P.base i.toNat j.toNat
  · exact ⟨_, jumpResult.2 P 0 s hs hx, stateAfter_zero hx⟩

section

variable {w B : Nat} {R : Reader w B} {k n : Nat} {s t u v : State}

/-- From an empty buffer `k` whole batches take `k` draws (R145). -/
theorem advanceCount_batches (hB : 0 < B) (k : Nat) : advanceCount B B (B * k) = k := by
  rw [advanceCount_eq B B _ hB, Nat.sub_self, Nat.sub_zero, Nat.mul_mod_right, if_pos rfl, Nat.mul_div_cancel_left k hB]

/-- Whole batches leave an empty buffer empty (R145). -/
theorem cursorEnd_batches (B k : Nat) : cursorEnd B B (B * k) = B := by
  rw [cursorEnd, Nat.sub_self, Nat.sub_zero, Nat.mul_mod_right, if_pos rfl]
  split_ifs with h
  · rw [Nat.le_zero.mp h, Nat.add_zero]
  · rfl

/-- A READ from an empty buffer depends on `X` and `A` alone (R145). -/
theorem Reader.Reads.eq_of_empty (hR : R.Lawful) (hx : s.x = t.x) (ha : s.a = t.a) (hcs : (R.cur s).val = B)
    (hct : (R.cur t).val = B) (hu : R.Reads n s u) (hv : R.Reads n t v) :
    newElems s u = newElems t v ∧ u.x = v.x ∧ R.cur u = R.cur v := by
  refine ⟨?_, ?_, ?_⟩
  · rw [newElems_of_elems hu.out, newElems_of_elems hv.out, hR.output_of_empty hcs, hR.output_of_empty hct, hx, ha]
  · rw [hu.x, hv.x, hcs, hct, hx, ha]
  · apply Fin.ext
    rw [hu.cur, hv.cur, hcs, hct]

/-- A core `t` that stands `k` draws ahead of `s` delivers next what `s` delivers after `k` discarded batches, where
both have nothing left over (R167). -/
theorem Reader.Lawful.read_after_discard (hR : R.Lawful) {b m : Operand} (hm : m.toNat = B * k)
    (hs : s.seeded = true) (hx : isResidue s.x = true) (ha : isResidue s.a = true) (hcs : (R.cur s).val = B)
    (ht : t.seeded = true) (htx : t.x = stateAfter s.x s.a k) (hta : t.a = s.a) (hct : (R.cur t).val = B) :
    ∃ t₂ u₁ u₂, exec (R.command b) t = .next t₂ ∧ exec (R.command m) s = .next u₁ ∧ exec (R.command b) u₁ = .next u₂ ∧
      newElems t t₂ = newElems u₁ u₂ ∧ t₂.x = u₂.x ∧ R.cur t₂ = R.cur u₂ := by
  obtain ⟨t₂, et₂, ht₂⟩ := hR.completes b t ht (htx ▸ stateAfter_isResidue _ _ _) (hta ▸ ha)
  obtain ⟨u₁, eu₁, hu₁⟩ := hR.completes m s hs hx ha
  obtain ⟨u₂, eu₂, hu₂⟩ := hR.completes b u₁ hu₁.seeded hu₁.x_isResidue (hu₁.a ▸ ha)
  have hux : u₁.x = stateAfter s.x s.a k := by rw [hu₁.x, hm, hcs, advanceCount_batches hR.batch_pos]
  have huc : (R.cur u₁).val = B := by rw [hu₁.cur, hm, hcs, cursorEnd_batches]
  exact ⟨t₂, u₁, u₂, et₂, eu₁, eu₂,
    ht₂.eq_of_empty hR (htx.trans hux.symm) (hta.trans hu₁.a.symm) hct huc hu₂⟩

end

/-- A JUMP stands `n` draws with the multiplier `A_BASE` ahead, and leaves an empty buffer empty, whether or not it
resets the cursors (R165, R166). -/
theorem jump_from_empty (P : Params) (n : Operand) {s : State} (hs : s.seeded = true) (hx : isResidue s.x = true) :
    ∃ t, execWith P (.jump n) s = .next t ∧ t.seeded = true ∧ t.x = stateAfter s.x P.base n.toNat ∧ t.a = s.a ∧
      (s.fcur = 24 → t.fcur = 24) ∧ (s.dcur = 11 → t.dcur = 11) :=
  ⟨_, jumpResult.2 P n s hs hx, hs, rfl, rfl, fun h => by simp [h], fun h => by simp [h]⟩

/-- Settles O38: JUMP by `n` and `n` discarded batches make the same `n` draws. -/
theorem jumpEquivalence : Obligations.JumpEquivalence := by
  unfold Obligations.JumpEquivalence
  constructor
  · intro P n s hs hx ha hc hn
    have hm : (24 * n).toNat = 24 * n.toNat := BitVec.toNat_mul_of_lt hn
    obtain ⟨t, et, ht, htx, hta, hempty, -⟩ := jump_from_empty P n hs hx
    obtain ⟨t₂, u₁, u₂, h⟩ := Reader.lawful_single.read_after_discard (b := 24) hm hs hx
      (ha ▸ isResidue_base P) (congrArg Fin.val hc) ht (ha ▸ htx) hta (congrArg Fin.val (hempty hc))
    exact ⟨t, t₂, u₁, u₂, et, h⟩
  · intro P n s hs hx ha hc hn
    have hm : (11 * n).toNat = 11 * n.toNat := BitVec.toNat_mul_of_lt hn
    obtain ⟨t, et, ht, htx, hta, -, hempty⟩ := jump_from_empty P n hs hx
    obtain ⟨t₂, u₁, u₂, h⟩ := Reader.lawful_double.read_after_discard (b := 11) hm hs hx
      (ha ▸ isResidue_base P) (congrArg Fin.val hc) ht (ha ▸ htx) hta (congrArg Fin.val (hempty hc))
    exact ⟨t, t₂, u₁, u₂, et, h⟩

/-- JUMP, SETSKIP and SELPRIM complete without touching a buffer entry, nor a cursor except for a JUMP that resets
them (R166, R203, R204). -/
theorem config_keeps_buffers (P : Params) {n : Operand} {i : Instr} {s : State} (hs : s.seeded = true)
    (hx : isResidue s.x = true) (hi : i = .jump n ∨ i = .setskip n ∨ i = .selprim) :
    ∃ t, execWith P i s = .next t ∧ t.seeded = true ∧ t.fbuf = s.fbuf ∧ t.dbuf = s.dbuf ∧
      (i ≠ .jump n ∨ P.jumpResetsCursors = false → t.fcur = s.fcur ∧ t.dcur = s.dcur) := by
  rcases hi with rfl | rfl | rfl
  · refine ⟨_, jumpResult.2 P n s hs hx, hs, rfl, rfl, fun h => ?_⟩
    have hP : P.jumpResetsCursors = false := h.resolve_left fun hne => hne rfl
    simp [hP]
  · exact ⟨_, execWith_setskip P n hs, hs, rfl, rfl, fun _ => ⟨rfl, rfl⟩⟩
  · exact ⟨_, execWith_selprim P hs, hs, rfl, rfl, fun _ => ⟨rfl, rfl⟩⟩

/-- Cores with the same leftover single-precision values deliver the same ones of them (R145). -/
theorem readf_leftovers_congr {s t : State} {m : Operand} (hs : s.seeded = true) (ht : t.seeded = true)
    (hcur : t.fcur = s.fcur) (hbuf : t.fbuf = s.fbuf) (hm : m.toNat ≤ 24 - s.fcur.val) :
    ∃ u v, exec (.readf m) t = .next u ∧ exec (.readf m) s = .next v ∧ newElems t u = newElems s v := by
  refine ⟨_, _, readFromBuffer.1 m t ht (hcur ▸ hm), readFromBuffer.1 m s hs hm, ?_⟩
  rw [newElems_of rfl, newElems_of rfl, hcur, hbuf]

/-- Cores with the same leftover double-precision values deliver the same ones of them (R145). -/
theorem readd_leftovers_congr {s t : State} {m : Operand} (hs : s.seeded = true) (ht : t.seeded = true)
    (hcur : t.dcur = s.dcur) (hbuf : t.dbuf = s.dbuf) (hm : m.toNat ≤ 11 - s.dcur.val) :
    ∃ u v, exec (.readd m) t = .next u ∧ exec (.readd m) s = .next v ∧ newElems t u = newElems s v := by
  refine ⟨_, _, readFromBuffer.2 m t ht (hcur ▸ hm), readFromBuffer.2 m s hs hm, ?_⟩
  rw [newElems_of rfl, newElems_of rfl, hcur, hbuf]

/-- Settles O39: the commands leave what a READ of leftover values depends on; a resetting JUMP writes both cursors. -/
theorem staleBuffers : Obligations.StaleBuffers := by
  unfold Obligations.StaleBuffers
  intro P n m s i hs hx hi
  obtain ⟨t, et, ht, hfbuf, hdbuf, hcur⟩ := config_keeps_buffers P hs hx hi
  refine ⟨fun hkeep hm => ?_, fun hkeep hm => ?_, ?_⟩
  · obtain ⟨u, v, h⟩ := readf_leftovers_congr hs ht (hcur hkeep).1 hfbuf hm
    exact ⟨t, u, v, et, h⟩
  · obtain ⟨u, v, h⟩ := readd_leftovers_congr hs ht (hcur hkeep).2 hdbuf hm
    exact ⟨t, u, v, et, h⟩
  · rintro rfl hP
    exact ⟨_, jumpResult.2 P n s hs hx, if_pos hP, if_pos hP⟩

end Sys2Proof.Machine
end

section
/-! SUPPORT. Every command and every step completes (spec/70_reset_and_hazards.md R211), and what an accepted word that
raises IllegalCommand or NotSeeded leaves (spec/60_exceptions.md R180 to R184). -/

namespace Sys2Proof.Machine

open Sys2Proof.Safety

/-! ### Completion (R180, R211) -/

/-- A next state, with no command in progress. -/
def Completes (r : Result) : Prop := ∃ t, r = .next t ∧ t.busy = false

theorem completes_complete (s : State) : Completes (.next (complete s)) := ⟨_, rfl, complete_busy s⟩

theorem completes_raiseFault (c : FaultCode) (s : State) : Completes (.next (raiseFault c s)) :=
  ⟨_, rfl, raiseFault_busy c s⟩

theorem completes_raiseMulmod (s : State) : Completes (.next (raiseMulmod s)) := completes_raiseFault _ _

theorem completes_whenSeeded {s : State} {k : Result} (hk : Completes k) : Completes (whenSeeded s k) := by
  cases hs : s.seeded with
  | true =>
    rw [whenSeeded_of_seeded hs]
    exact hk
  | false =>
    rw [whenSeeded_of_unseeded hs]
    exact completes_raiseFault _ _

theorem completes_readAnswer {w B : Nat} (store : ReadRun w B → State) (e : Except (ReadRun w B) (ReadRun w B)) :
    Completes (readAnswer store e) := by
  cases e with
  | ok r => exact completes_complete _
  | error r => exact completes_raiseMulmod _

theorem completes_jumpWith (P : Params) (n : Operand) (s : State) : Completes (jumpWith P n s) := by
  refine completes_whenSeeded ?_
  cases (powMod P.base n).bind (mulMod s.x) with
  | some x => exact completes_complete _
  | none => exact completes_raiseMulmod _

/-- A command completes in every state: its registers and buffers need not be meaningful (R211). -/
theorem completes_execWith (P : Params) (i : Instr) (s : State) : Completes (execWith P i s) := by
  cases i with
  | seed k p => exact ⟨_, seedWith_eq P k p s, rfl⟩
  | readf n =>
    rw [execWith, execReadf_eq_readAnswer]
    exact completes_whenSeeded (completes_readAnswer _ _)
  | readd n =>
    rw [execWith, execReadd_eq_readAnswer]
    exact completes_whenSeeded (completes_readAnswer _ _)
  | jump n => exact completes_jumpWith P n s
  | setskip n =>
    refine completes_whenSeeded ?_
    rw [powMod_base]
    exact completes_complete _
  | selprim =>
    refine completes_whenSeeded ?_
    rw [powMod_base]
    exact completes_complete _

/-- A step answers a next state, if every command does (R40, R183, R196, R200). -/
theorem stepBy_answers {run : Instr → State → Result} (hrun : ∀ i s, ∃ t, run i s = .next t) (s : State) :
    ∃ t, stepBy run s = .next t := by
  cases hh : s.host with
  | nil => exact ⟨_, stepBy_of_idle run hh⟩
  | cons action rest =>
    cases action with
    | reset => exact ⟨_, stepBy_of_reset run hh⟩
    | present w =>
      cases hp : portOpen s with
      | false => exact ⟨_, stepBy_of_closed run hh hp⟩
      | true =>
        rw [stepBy_of_open run hh hp, runWord]
        cases decode w with
        | ok i => exact hrun i _
        | error e => exact ⟨_, rfl⟩

theorem stepWith_answers (P : Params) (s : State) : ∃ t, stepWith P s = .next t :=
  stepBy_answers (fun i s => (completes_execWith P i s).imp fun _ h => h.1) s

/-- No operand makes a command fault on a seeded core that meets the invariant (R180). -/
theorem execWith_flags {P : Params} {i : Instr} {s t : State} (h : execWith P i s = .next t) (hinv : Inv s)
    (hs : s.seeded = true) : t.fault = s.fault ∧ t.faultCode = s.faultCode :=
  (execWith_cases (fun hs => ⟨hinv.x_residue hs, hinv.a_residue hs⟩) h).flags hs

/-- Settles O57: each command ends in `complete` or in a fault entry, and the latter is none of the answers of a seeded
core that holds residues. -/
theorem commandsComplete : Obligations.CommandsComplete := by
  unfold Obligations.CommandsComplete
  refine ⟨fun i s => ?_, fun s => ?_, fun i s t hinv hs h => ?_, fun P i s => ?_, stepWith_answers⟩
  · rw [exec_eq_execWith]
    exact completes_execWith _ i s
  · rw [step_eq_stepWith]
    exact stepWith_answers _ s
  · rw [exec_eq_execWith] at h
    exact execWith_flags h hinv hs
  · obtain ⟨t, h, hbusy⟩ := completes_execWith P i s
    exact ⟨t, h, hbusy, execWith_flags h⟩

/-! ### Faults of an accepted word (R183, R184) -/

/-- Fault entry from a word accepted on an open port writes FAULT and FAULT_CODE alone: BUSY is back at its value (R181). -/
theorem raiseFault_accept {s : State} (hp : portOpen s = true) (c : FaultCode) (rest : List HostAction) :
    raiseFault c (accept { s with host := rest }) = { s with host := rest, fault := true, faultCode := c } := by
  rw [raiseFault, accept, ← busy_of_portOpen hp]

/-- An illegal word at DECODE raises IllegalCommand on the busy core, whatever commands do (R183, R186). -/
theorem runWord_of_illegal (run : Instr → State → Result) {w : CmdWord} (hw : (fieldsOf w).legal = false) (s : State) :
    runWord run w s = .next (raiseFault .illegalCommand (accept s)) := by
  obtain ⟨e, he⟩ := (decode_eq_error_iff w).mpr hw
  rw [runWord, he]

/-- Settles O46: the listed words are those that the legality check refuses. -/
theorem illegalWordFaults : Obligations.IllegalWordFaults := by
  unfold Obligations.IllegalWordFaults
  intro s w rest hh hp hw
  rw [step, stepBy_of_open exec hh hp, runWord_of_illegal exec ((fieldsOf w).legal_eq_false_iff.mpr hw),
    raiseFault_accept hp]

/-- Settles O47: the check that guards every command but SEED raises NotSeeded before the command does anything. -/
theorem notSeededFaults : Obligations.NotSeededFaults := by
  unfold Obligations.NotSeededFaults
  intro s w rest n i hh hp hw hi hs
  have hseed : isSeed i = false := by rcases hi with rfl | rfl | rfl | rfl | rfl <;> rfl
  rw [step, stepBy_of_open exec hh hp, runWord_of_decode exec hw, exec_eq_execWith,
    execWith_of_unseeded (s := accept { s with host := rest }) Config.params hs hseed, raiseFault_accept hp]

end Sys2Proof.Machine
end

section
/-! SUPPORT. Reset of the control machine, in the middle of a command or not (spec/70_reset_and_hazards.md R200). -/

namespace Sys2Proof.Machine

@[simp] theorem microReset_ctl (m : Micro) : (microReset m).ctl = .idle := rfl

/-- The architectural state is reset as it is between commands (R33, R200). -/
@[simp] theorem microReset_core (m : Micro) : (microReset m).core = resetCore m.core := rfl

/-- Settles O50: reset leads to IDLE, and in the core it is `resetCore`, which clears the flags and keeps the output. -/
theorem resetAbandonsCommand : Obligations.ResetAbandonsCommand := by
  unfold Obligations.ResetAbandonsCommand
  intro m
  rw [microReset_core]
  exact ⟨microReset_ctl m, resetCore_busy _, resetCore_seeded _, resetCore_fault _, resetCore_faultCode _, resetCore_out _⟩

end Sys2Proof.Machine
end
